-- ==== Sys2Proof/Word.lean ====
section
/-! DEFINITION. The widths the spec gives its values (00_scope R10, R11, R12) and nothing else. -/
namespace Sys2Proof

/-- One byte: a general register, a timer, a byte of memory (R10 `REG_WIDTH`, `TIMER_WIDTH`). -/
abbrev Byte := BitVec 8

/-- Sixteen bits: an opcode, the program counter, a call-stack entry (R10 `INSTR_WIDTH`, `PC_WIDTH`). -/
abbrev Word := BitVec 16

/-- Twelve bits: the index register and the address field NNN (R10 `I_WIDTH`, R111). -/
abbrev Addr := BitVec 12

/-- Four bits: a register index or the low nibble N (R111). -/
abbrev Nibble := BitVec 4

end Sys2Proof
end

