-- ==== Sys2Proof/Syntax.lean ====
section
/-! DEFINITION. The instruction set: one constructor for each row of 30_encoding R114 (spec/opcode_table.json), with
the operand fields of R111 that the row examines. A don't-care nibble is no operand (R116). -/
namespace Sys2Proof

inductive Instr where
  /-- `0?E0` CLS (R160). -/
  | cls
  /-- `0?EE` RET (R161). -/
  | ret
  /-- `1NNN` JP NNN (R162). -/
  | jp (nnn : Addr)
  /-- `2NNN` CALL NNN (R163). -/
  | call (nnn : Addr)
  /-- `3XNN` SE Vx, NN (R180). -/
  | seImm (x : Nibble) (nn : Byte)
  /-- `4XNN` SNE Vx, NN (R181). -/
  | sneImm (x : Nibble) (nn : Byte)
  /-- `5XY?` SE Vx, Vy (R182). -/
  | seReg (x y : Nibble)
  /-- `6XNN` LD Vx, NN (R183). -/
  | ldImm (x : Nibble) (nn : Byte)
  /-- `7XNN` ADD Vx, NN (R184). -/
  | addImm (x : Nibble) (nn : Byte)
  /-- `8XY0` LD Vx, Vy (R201). -/
  | ldReg (x y : Nibble)
  /-- `8XY1` OR Vx, Vy (R202). -/
  | orReg (x y : Nibble)
  /-- `8XY2` AND Vx, Vy (R203). -/
  | andReg (x y : Nibble)
  /-- `8XY3` XOR Vx, Vy (R204). -/
  | xorReg (x y : Nibble)
  /-- `8XY4` ADD Vx, Vy (R205). -/
  | addReg (x y : Nibble)
  /-- `8XY5` SUB Vx, Vy (R206). -/
  | subReg (x y : Nibble)
  /-- `ANNN` LD I, NNN (R220). -/
  | ldI (nnn : Addr)
  /-- `BNNN` JP V0, NNN (R221). -/
  | jpV0 (nnn : Addr)
  /-- `CXNN` RND Vx, NN (R222). -/
  | rnd (x : Nibble) (nn : Byte)
  /-- `DXYN` DRW Vx, Vy, N (R223). -/
  | drw (x y n : Nibble)
  /-- `EX?E` SKP Vx (R240). -/
  | skp (x : Nibble)
  /-- `EX?1` SKNP Vx (R241). -/
  | sknp (x : Nibble)
  /-- `FX07` LD Vx, DT (R250). -/
  | ldVxDT (x : Nibble)
  /-- `FX15` LD DT, Vx (R251). -/
  | ldDTVx (x : Nibble)
  /-- `FX18` LD ST, Vx (R252). -/
  | ldSTVx (x : Nibble)
  /-- `FX1E` ADD I, Vx (R253). -/
  | addI (x : Nibble)
  /-- `FX29` LD F, Vx (R254). -/
  | ldF (x : Nibble)
  /-- `FX33` LD B, Vx (R255). -/
  | ldB (x : Nibble)
  /-- `FX55` LD [I], Vx (R256). -/
  | ldMemVx (x : Nibble)
  /-- `FX65` LD Vx, [I] (R257). -/
  | ldVxMem (x : Nibble)
  deriving DecidableEq, Repr

end Sys2Proof
end

