-- ==== Sys2Proof/Decode.lean ====
section
/-! DEFINITION. Instruction decode (30_encoding R110 to R117) and, after it, the encoder. -/
namespace Sys2Proof

/-- Why no instruction is read: the word is an unknown opcode (R115), or fewer than two bytes are there (R110). -/
inductive DecodeError where
  | unknownOpcode (op : Word)
  | truncated
  deriving DecidableEq, Repr

/-- Field C, `op[15:12]` (R111). -/
def opClass (op : Word) : Nibble := op.extractLsb' 12 4

/-- Field X, `op[11:8]` (R111). -/
def opX (op : Word) : Nibble := op.extractLsb' 8 4

/-- Field Y, `op[7:4]` (R111). -/
def opY (op : Word) : Nibble := op.extractLsb' 4 4

/-- Field N, `op[3:0]` (R111). -/
def opN (op : Word) : Nibble := op.extractLsb' 0 4

/-- Field NN, `op[7:0]` (R111). -/
def opNN (op : Word) : Byte := op.extractLsb' 0 8

/-- Field NNN, `op[11:0]` (R111). -/
def opNNN (op : Word) : Addr := op.extractLsb' 0 12

/-- The sub-dispatch of class 0 on the low byte; `op[11:8]` is not examined (R113, decision D16). -/
def decodeClass0 (op : Word) : Except DecodeError Instr :=
  match opNN op with
  | 0xE0#8 => .ok .cls
  | 0xEE#8 => .ok .ret
  | _ => .error (.unknownOpcode op)

/-- The sub-dispatch of class 8 on the low nibble (R113). -/
def decodeClass8 (op : Word) : Except DecodeError Instr :=
  match opN op with
  | 0x0#4 => .ok (.ldReg (opX op) (opY op))
  | 0x1#4 => .ok (.orReg (opX op) (opY op))
  | 0x2#4 => .ok (.andReg (opX op) (opY op))
  | 0x3#4 => .ok (.xorReg (opX op) (opY op))
  | 0x4#4 => .ok (.addReg (opX op) (opY op))
  | 0x5#4 => .ok (.subReg (opX op) (opY op))
  | _ => .error (.unknownOpcode op)

/-- The sub-dispatch of class E on the low nibble; `op[7:4]` is not examined (R113, decision D17). -/
def decodeClassE (op : Word) : Except DecodeError Instr :=
  match opN op with
  | 0xE#4 => .ok (.skp (opX op))
  | 0x1#4 => .ok (.sknp (opX op))
  | _ => .error (.unknownOpcode op)

/-- The sub-dispatch of class F on the low byte (R113). -/
def decodeClassF (op : Word) : Except DecodeError Instr :=
  match opNN op with
  | 0x07#8 => .ok (.ldVxDT (opX op))
  | 0x15#8 => .ok (.ldDTVx (opX op))
  | 0x18#8 => .ok (.ldSTVx (opX op))
  | 0x1E#8 => .ok (.addI (opX op))
  | 0x29#8 => .ok (.ldF (opX op))
  | 0x33#8 => .ok (.ldB (opX op))
  | 0x55#8 => .ok (.ldMemVx (opX op))
  | 0x65#8 => .ok (.ldVxMem (opX op))
  | _ => .error (.unknownOpcode op)

/-- `Decode(op)` of R113: the class, then the sub-dispatch of classes 0, 8, E and F. Total on all words; an unknown
word is rejected by name (R115). -/
def decode (op : Word) : Except DecodeError Instr :=
  match opClass op with
  | 0x0#4 => decodeClass0 op
  | 0x1#4 => .ok (.jp (opNNN op))
  | 0x2#4 => .ok (.call (opNNN op))
  | 0x3#4 => .ok (.seImm (opX op) (opNN op))
  | 0x4#4 => .ok (.sneImm (opX op) (opNN op))
  | 0x5#4 => .ok (.seReg (opX op) (opY op))
  | 0x6#4 => .ok (.ldImm (opX op) (opNN op))
  | 0x7#4 => .ok (.addImm (opX op) (opNN op))
  | 0x8#4 => decodeClass8 op
  | 0xA#4 => .ok (.ldI (opNNN op))
  | 0xB#4 => .ok (.jpV0 (opNNN op))
  | 0xC#4 => .ok (.rnd (opX op) (opNN op))
  | 0xD#4 => .ok (.drw (opX op) (opY op) (opN op))
  | 0xE#4 => decodeClassE op
  | 0xF#4 => decodeClassF op
  | _ => .error (.unknownOpcode op)

/-- The opcode made of two consecutive bytes, the first the more significant (R110). -/
def wordOfBytes (hi lo : Byte) : Word := hi ++ lo

/-- The two bytes of an opcode as memory holds them, the first at the lower address (R110). -/
def bytesOfWord (op : Word) : List Byte := [op.extractLsb' 8 8, op.extractLsb' 0 8]

/-- Decode from a list of bytes: the instruction and the bytes after it (R110). -/
def decodeBytes : List Byte → Except DecodeError (Instr × List Byte)
  | hi :: lo :: rest =>
    match decode (wordOfBytes hi lo) with
    | .ok i => .ok (i, rest)
    | .error e => .error e
  | _ => .error .truncated

/-- The instruction this decoder reads from a word numbered as spec/opcode_table.json numbers it: its first `nbits`
bits, every bit above them 0, laid out as two bytes in the hardware's order. -/
def decodeTableWord (nbits w : Nat) : Option Instr :=
  match decodeBytes (bytesOfWord (BitVec.ofNat 16 (w % 2 ^ nbits))) with
  | .ok (i, _) => some i
  | .error _ => none

/-- A word of four nibbles, the most significant first. -/
def wordOfNibbles (c x y n : Nibble) : Word := c ++ x ++ y ++ n

/-- A word `CXNN` (R111). -/
def wordOfXNN (c x : Nibble) (nn : Byte) : Word := c ++ x ++ nn

/-- A word `CNNN` (R111). -/
def wordOfNNN (c : Nibble) (nnn : Addr) : Word := c ++ nnn

/-- The word of an instruction, from the patterns of R114. Where a nibble is a don't-care the canonical spelling is
taken (DESIGN CHOICE, log entry 12): `00E0`, `00EE`, `5XY0` (R182), `EX9E` (R240), `EXA1` (R241). -/
def encode : Instr → Word
  | .cls => wordOfXNN 0x0 0x0 0xE0
  | .ret => wordOfXNN 0x0 0x0 0xEE
  | .jp nnn => wordOfNNN 0x1 nnn
  | .call nnn => wordOfNNN 0x2 nnn
  | .seImm x nn => wordOfXNN 0x3 x nn
  | .sneImm x nn => wordOfXNN 0x4 x nn
  | .seReg x y => wordOfNibbles 0x5 x y 0x0
  | .ldImm x nn => wordOfXNN 0x6 x nn
  | .addImm x nn => wordOfXNN 0x7 x nn
  | .ldReg x y => wordOfNibbles 0x8 x y 0x0
  | .orReg x y => wordOfNibbles 0x8 x y 0x1
  | .andReg x y => wordOfNibbles 0x8 x y 0x2
  | .xorReg x y => wordOfNibbles 0x8 x y 0x3
  | .addReg x y => wordOfNibbles 0x8 x y 0x4
  | .subReg x y => wordOfNibbles 0x8 x y 0x5
  | .ldI nnn => wordOfNNN 0xA nnn
  | .jpV0 nnn => wordOfNNN 0xB nnn
  | .rnd x nn => wordOfXNN 0xC x nn
  | .drw x y n => wordOfNibbles 0xD x y n
  | .skp x => wordOfXNN 0xE x 0x9E
  | .sknp x => wordOfXNN 0xE x 0xA1
  | .ldVxDT x => wordOfXNN 0xF x 0x07
  | .ldDTVx x => wordOfXNN 0xF x 0x15
  | .ldSTVx x => wordOfXNN 0xF x 0x18
  | .addI x => wordOfXNN 0xF x 0x1E
  | .ldF x => wordOfXNN 0xF x 0x29
  | .ldB x => wordOfXNN 0xF x 0x33
  | .ldMemVx x => wordOfXNN 0xF x 0x55
  | .ldVxMem x => wordOfXNN 0xF x 0x65

/-- One row of the opcode map: a word belongs to it when its masked bits are `value` (R114). -/
def rowOf : Instr → Word × Word
  | .cls => (0xF0FF, 0x00E0)
  | .ret => (0xF0FF, 0x00EE)
  | .jp _ => (0xF000, 0x1000)
  | .call _ => (0xF000, 0x2000)
  | .seImm _ _ => (0xF000, 0x3000)
  | .sneImm _ _ => (0xF000, 0x4000)
  | .seReg _ _ => (0xF000, 0x5000)
  | .ldImm _ _ => (0xF000, 0x6000)
  | .addImm _ _ => (0xF000, 0x7000)
  | .ldReg _ _ => (0xF00F, 0x8000)
  | .orReg _ _ => (0xF00F, 0x8001)
  | .andReg _ _ => (0xF00F, 0x8002)
  | .xorReg _ _ => (0xF00F, 0x8003)
  | .addReg _ _ => (0xF00F, 0x8004)
  | .subReg _ _ => (0xF00F, 0x8005)
  | .ldI _ => (0xF000, 0xA000)
  | .jpV0 _ => (0xF000, 0xB000)
  | .rnd _ _ => (0xF000, 0xC000)
  | .drw _ _ _ => (0xF000, 0xD000)
  | .skp _ => (0xF00F, 0xE00E)
  | .sknp _ => (0xF00F, 0xE001)
  | .ldVxDT _ => (0xF0FF, 0xF007)
  | .ldDTVx _ => (0xF0FF, 0xF015)
  | .ldSTVx _ => (0xF0FF, 0xF018)
  | .addI _ => (0xF0FF, 0xF01E)
  | .ldF _ => (0xF0FF, 0xF029)
  | .ldB _ => (0xF0FF, 0xF033)
  | .ldMemVx _ => (0xF0FF, 0xF055)
  | .ldVxMem _ => (0xF0FF, 0xF065)

/-- The bits of a word that are no part of the instruction: the don't-care nibbles of R114 and R116. -/
def dontCare : Instr → Word
  | .cls => 0x0F00
  | .ret => 0x0F00
  | .seReg _ _ => 0x000F
  | .skp _ => 0x00F0
  | .sknp _ => 0x00F0
  | _ => 0x0000

end Sys2Proof
end

