-- ==== Sys2Proof/Config.lean ====
section
/-! DEFINITION. What is fixed for one machine: the implementation parameters of 00_scope R10, the memory map of
20_memory R70, R75, R80, what a launch supplies (R361), and the environment's free values (R332, R333, R360). -/
namespace Sys2Proof

/-- One mapping of the bus: a region of `size` bytes at `base`, writable or not (20_memory R70, R75). The region's
byte at offset `o` is the memory byte at `base + o`. -/
structure Mapping where
  base : Nat
  size : Nat
  mutable : Bool
  deriving DecidableEq, Repr

/-- R10 `PROGRAM_LOAD_ADDRESS`: where `init()` puts pc (decision D4). -/
def Config.programLoadAddress : Word := 0x200

/-- R10 `ROM_BASE` (decision D5). -/
def Config.romBase : Nat := 0x200

/-- R10 `ADDR_SPACE_SIZE` (decision D2). -/
def Config.addrSpaceSize : Nat := 0x1000

/-- The default memory map of 20_memory R80 for a given `ROM_CAPACITY`; HIGH_RAM is absent when the ROM fills the
space above its base. -/
def Config.defaultMap (romCapacity : Nat) : List Mapping :=
  [⟨0, 0x200, true⟩, ⟨Config.romBase, romCapacity, false⟩] ++
    (if Config.romBase + romCapacity < Config.addrSpaceSize then
      [⟨Config.romBase + romCapacity, Config.addrSpaceSize - (Config.romBase + romCapacity), true⟩] else [])

/-- Everything a system construction takes (70_reset_and_hazards R361): `MEMORY_MAP`, which of its regions the image
is loaded into (named by its base: log entry 17; any region of the map, writable or not: DESIGN CHOICE, log entry
18), `ROM_IMAGE`, `MEM_INIT` and `V_INIT`. `memInit` lists the bytes of fresh region
storage that are not zero, so every `MEM_INIT` on a map is some list. -/
structure Launch where
  map : List Mapping
  romBase : Nat
  romImage : List Byte
  memInit : List Host.Cell
  vInit : Vector Byte 16
  deriving DecidableEq, Repr

/-- The byte the random source supplies as the environment's n-th free value: any byte, independent per call
(60_exceptions R333). FREE VALUE, DESIGN CHOICE, SAFE: log entry 6. -/
opaque Config.randomByte : Nat → Byte

/-- The input collaborator's answer as the environment's n-th free value: any Boolean, independent per call
(60_exceptions R332). FREE VALUE, DESIGN CHOICE, SAFE: log entry 6. -/
opaque Config.keyAnswer : Nat → Bool

/-- What the call stack's entries hold after `init()`: unspecified (70_reset_and_hazards R360). FREE VALUE,
DESIGN CHOICE, SAFE: log entry 3. -/
opaque Config.stackAfterInit : Nat → Vector Word 16

end Sys2Proof
end

