-- ==== Sys2Proof/Machine/State.lean ====
section
/-! DEFINITION. The state of the block (10_state R30) as plain data, the halt reasons (60_exceptions R320), the output
events (R330), the host's actions (R328), and the state after reset (10_state R46). -/
namespace Sys2Proof.Machine

/-- The bytes of the mapped regions (10_state R42), keyed by bus address (DESIGN CHOICE, log entry 13): addresses
strictly rising, no entry equal to what an unlisted address holds. -/
abbrev Memory := List Host.Cell

/-- The kinds of bus fault (20_memory R78). -/
inductive BusFaultKind where
  | unmapped
  | straddle
  | readOnly
  deriving DecidableEq, Repr

/-- The accesses the interpreter makes (R78). -/
inductive Access where
  | fetch
  | read
  | write
  deriving DecidableEq, Repr

/-- The halt reasons of 60_exceptions R320, with what each records. -/
inductive HaltReason where
  | unknownOpcode (op : Word) (pc : Word)
  | busFault (kind : BusFaultKind) (access : Access) (addr : Nat) (width : Nat) (pc : Word)
  | stackOverflow (pc : Word)
  | stackUnderflow (pc : Word)
  | externalStop
  deriving DecidableEq, Repr

/-- The interpreter's run state (10_state R40). -/
inductive RunState where
  | running
  | halted (reason : HaltReason)
  deriving DecidableEq, Repr

/-- One event of the output trace (60_exceptions R330): the calls to the graphics, input and orchestrator
collaborators, and the diagnostic. -/
inductive Event where
  | clear
  | draw (x y : Byte) (height : Nibble) (source : Addr)
  | keyQuery (name : String) (answer : Bool)
  | diagnostic (reason : HaltReason)
  | stopSignal
  deriving DecidableEq, Repr

/-- The host actions of 60_exceptions R328. -/
inductive HostAction where
  | tick
  | init
  | stop
  | timerDecrement
  | inspect
  deriving DecidableEq, Repr

/-- The state. `map` and `vInit` are launch parameters (00_scope R10) that no step changes; `draws` and `hostPlan` are
the model's own (log entries 6 and 7); every other field is an element of R30. -/
structure State where
  /-- V0 to VF (R31); VF is also the flag (R33). -/
  v : Vector Byte 16
  /-- The program counter (R34). -/
  pc : Word
  /-- The index register (R35). -/
  i : Addr
  /-- The number of call-stack entries in use, 0 to 16 (R36). -/
  sp : Fin 17
  /-- The call stack (R36). -/
  stack : Vector Word 16
  /-- The delay timer (R39). -/
  dt : Byte
  /-- The sound timer (R39). -/
  st : Byte
  /-- Running or halted (R40). -/
  run : RunState
  /-- The executed-instruction counter (R41). -/
  icount : BitVec 64
  /-- Memory contents (R42). -/
  mem : Memory
  /-- The output trace, oldest event first (R330). -/
  trace : List Event
  /-- `MEMORY_MAP` (R75, R80). -/
  map : List Mapping
  /-- `V_INIT` (R46). -/
  vInit : Vector Byte 16
  /-- How many free values the environment has supplied so far. -/
  draws : Nat
  /-- What the host does next, in order; once it is empty the host only ticks (R328). -/
  hostPlan : List HostAction
  deriving DecidableEq, Repr

/-- No step of this hardware ends in a fault of the model: every exceptional event is the halt procedure of
60_exceptions R321, whose effect the spec gives, so it is a next state with `run = halted reason` (DEDUCED, log entry
9). The type has no constructor, so that this is a fact of its type. -/
inductive Fault where
  deriving DecidableEq, Repr

/-- Why an instruction has no meaning. -/
inductive Refusal where
  /-- Raised by an arm of `exec` whose instruction has no meaning yet; SAFE. No arm raises it now. -/
  | notModelled (mnemonic : String)
  deriving DecidableEq, Repr

/-- What `exec` and `step` answer. -/
abbrev Result := Host.Outcome State Fault Refusal

/-- The machine right after reset (10_state R46): every element at the value R46 states. Where R46 leaves the value
open the log names it, each a DESIGN CHOICE: V and `vInit` (entry 1, UNSAFE), the stack (entry 2, UNSAFE), memory
(entry 4, UNSAFE), the map with `ROM_CAPACITY` = 0x100 (entry 5, UNSAFE), `draws` (entry 6, SAFE), `hostPlan` (entry
7, UNSAFE). -/
def State.reset : State where
  v := Vector.replicate 16 0
  pc := Config.programLoadAddress
  i := 0
  sp := 0
  stack := Vector.replicate 16 0
  dt := 0
  st := 0
  run := .running
  icount := 0
  mem := []
  trace := []
  map := Config.defaultMap 0x100
  vInit := Vector.replicate 16 0
  draws := 0
  hostPlan := []

end Sys2Proof.Machine
end

