-- ==== Sys2Proof/Machine/Ops.lean ====
section
/-! DEFINITION. The named operations over memory, the bus, the registers and the trace; fetching; and the halt
procedure, which is this hardware's one way of taking an exception (60_exceptions R321). There is no return from an
exception (R324). -/
namespace Sys2Proof.Machine

/-! ### Memory bytes (20_memory R70, R71, R72, R82) -/

/-- What an unlisted address holds (DESIGN CHOICE, UNSAFE at reset: log entry 4). -/
def Memory.unlisted : Byte := 0

/-- The canonical form: addresses strictly rising, no entry equal to what an unlisted address holds. -/
abbrev Memory.wf (m : Memory) : Prop :=
  m.Pairwise (fun c d => c.1 < d.1) ∧ ∀ c ∈ m, c.2 ≠ Memory.unlisted

/-- The byte at an address. -/
def Memory.read : Memory → Nat → Byte
  | [], _ => Memory.unlisted
  | (k, b) :: m, a => if a = k then b else Memory.read m a

/-- Insert a cell before the first larger address. -/
def Memory.insert : Memory → Nat → Byte → Memory
  | [], a, b => [(a, b)]
  | (k, c) :: m, a, b => if a < k then (a, b) :: (k, c) :: m else (k, c) :: Memory.insert m a b

/-- Drop every cell at an address. -/
def Memory.erase (m : Memory) (a : Nat) : Memory := m.filter (fun c => c.1 != a)

/-- Write one byte, keeping the canonical form: a byte equal to what an unlisted address holds is not listed. -/
def Memory.write (m : Memory) (a : Nat) (b : Byte) : Memory :=
  if b = Memory.unlisted then Memory.erase m a else Memory.insert (Memory.erase m a) a b

/-- The `w`-byte big-endian value at `a`: the byte at `a` is the most significant (R71, decision D11). -/
def Memory.readBE (m : Memory) (a : Nat) : Nat → Nat
  | 0 => 0
  | w + 1 => Memory.readBE m a w * 256 + (Memory.read m (a + w)).toNat

/-- Write the low `8 * w` bits of `v` as `w` bytes, big-endian, in ascending order (R72, decision D11). -/
def Memory.writeBE (m : Memory) (a : Nat) : Nat → Nat → Memory
  | 0, _ => m
  | w + 1, v => Memory.write (Memory.writeBE m a w (v / 256)) (a + w) (BitVec.ofNat 8 v)

/-- Write a list of bytes at consecutive addresses. -/
def Memory.writeBytes (m : Memory) (a : Nat) : List Byte → Memory
  | [] => m
  | b :: bs => Memory.writeBytes (Memory.write m a b) (a + 1) bs

/-! ### Regions (20_memory R70 to R74) -/

/-- The failures of a region's own entry points (R71, R72, R73). -/
inductive RegionFailure where
  | regionBounds
  | readOnly
  | loadOversize
  deriving DecidableEq, Repr

/-- `region.getSize()` (R74). -/
def regionGetSize (r : Mapping) : Nat := r.size

/-- `region.read(o, w)` (R71). -/
def regionRead (r : Mapping) (m : Memory) (o w : Nat) : Except RegionFailure Nat :=
  if r.size < o + w then .error .regionBounds else .ok (Memory.readBE m (r.base + o) w)

/-- `region.write(o, w, v)` (R72). -/
def regionWrite (r : Mapping) (m : Memory) (o w v : Nat) : Except RegionFailure Memory :=
  if r.size < o + w then .error .regionBounds
  else if r.mutable then .ok (Memory.writeBE m (r.base + o) w v)
  else .error .readOnly

/-- `region.loadData(buffer, n)` (R73): all or nothing, and allowed on a read-only region. -/
def regionLoadData (r : Mapping) (m : Memory) (buffer : List Byte) : Except RegionFailure Memory :=
  if r.size < buffer.length then .error .loadOversize else .ok (Memory.writeBytes m r.base buffer)

/-! ### The bus (20_memory R75 to R78) -/

/-- The mapping covers the address (R75). -/
def owns (r : Mapping) (a : Nat) : Bool := decide (r.base ≤ a) && decide (a < r.base + r.size)

/-- The mapping that covers an address, if any. In a valid map there is at most one (R75); in a list that is no valid
map the first one counts (DESIGN CHOICE, log entry 13). -/
def ownerOf (map : List Mapping) (a : Nat) : Option Mapping := map.find? (fun r => owns r a)

/-- `Resolve(a, w)` of R76: the owning region and the offset in it, or `Unmapped`, or `Straddle`. -/
def busResolve (map : List Mapping) (a w : Nat) : Except BusFaultKind (Mapping × Nat) :=
  match ownerOf map a with
  | none => .error .unmapped
  | some r => if r.base + r.size < a + w then .error .straddle else .ok (r, a - r.base)

/-- `MemRead(a, w)` of R76. The region cannot refuse what `Resolve` has let through (R76's derived remark), so what
stands for its refusal is never reached (log entry 14). -/
def busRead (map : List Mapping) (m : Memory) (a w : Nat) : Except BusFaultKind Nat :=
  match busResolve map a w with
  | .error k => .error k
  | .ok (r, o) =>
    match regionRead r m o w with
    | .error _ => .error .straddle
    | .ok v => .ok v

/-- `MemWrite(a, w, v)` of R77. -/
def busWrite (map : List Mapping) (m : Memory) (a w v : Nat) : Except BusFaultKind Memory :=
  match busResolve map a w with
  | .error k => .error k
  | .ok (r, o) =>
    if r.mutable then
      match regionWrite r m o w v with
      | .error _ => .error .straddle
      | .ok m' => .ok m'
    else .error .readOnly

/-! ### Registers (10_state R31, R35, R39, R34) -/

/-- Read `V[x]` (R31). -/
def State.getV (s : State) (x : Nibble) : Byte := s.v[x.toNat]'(x.isLt)

/-- Write `V[x]` (R31). -/
def State.setV (s : State) (x : Nibble) (b : Byte) : State := { s with v := s.v.set x.toNat b x.isLt }

/-- Write the index register (R35). -/
def State.setI (s : State) (a : Addr) : State := { s with i := a }

/-- Write the delay timer (R39). -/
def State.setDT (s : State) (b : Byte) : State := { s with dt := b }

/-- Write the sound timer (R39). -/
def State.setST (s : State) (b : Byte) : State := { s with st := b }

/-- Write the program counter (R34). -/
def State.setPc (s : State) (a : Word) : State := { s with pc := a }

/-- Replace the memory contents. -/
def State.setMem (s : State) (m : Memory) : State := { s with mem := m }

/-- `Next()` of 40_cycle R145. -/
def State.next (s : State) : State := s.setPc (s.pc + 2)

/-- `Skip()` of 40_cycle R145. -/
def State.skip (s : State) : State := s.setPc (s.pc + 4)

/-- Skip when the condition holds, else advance by one instruction (R180). -/
def State.skipIf (s : State) (c : Bool) : State := s.setPc (s.pc + if c then 4 else 2)

/-! ### Events, draws and the halt procedure (60_exceptions R321, R330, R332, R333) -/

/-- `Emit(event)` (R330). -/
def State.emit (s : State) (e : Event) : State := { s with trace := s.trace ++ [e] }

/-- The environment has supplied one free value. -/
def State.drawn (s : State) : State := { s with draws := s.draws + 1 }

/-- `RandomByte()` (R333): the next free value. -/
def State.randomByte (s : State) : Byte := Config.randomByte s.draws

/-- The answer of `KeyDown(name)` (R332): the next free value, whatever the name. -/
def State.keyAnswer (s : State) : Bool := Config.keyAnswer s.draws

/-- `KeyDown(name)` with the event it emits (R240, R332): the state after the query whose answer is
`State.keyAnswer`. -/
def State.queryKey (s : State) (name : String) : State := (s.drawn).emit (.keyQuery name s.keyAnswer)

/-- `raise Halt(reason)` (R321): the one shared way of taking an exception. pc, icount, registers, stack and memory
keep their values (R322). -/
def State.halt (s : State) (r : HaltReason) : State :=
  { s with run := .halted r, trace := s.trace ++ [.diagnostic r, .stopSignal] }

/-- Complete an operation that may have raised a halt: advance past the instruction, or stop in the halted state.
`.error h` carries the state after the halt procedure. -/
def State.complete : Except State State → Result
  | .ok s => .next s.next
  | .error h => .next h

/-- The counter's increment at the end of a tick that executed an instruction to completion (40_cycle R146). -/
def State.retire (s : State) : State :=
  match s.run with
  | .running => { s with icount := s.icount + 1 }
  | .halted _ => s

/-! ### The call stack (10_state R36, R37, R38) -/

/-- `Push(v)` of R37: write, then increment; a full stack halts. -/
def State.push (s : State) (a : Word) : Except State State :=
  if h : s.sp.val < 16 then
    .ok { s with stack := s.stack.set s.sp.val a h, sp := ⟨s.sp.val + 1, by omega⟩ }
  else .error (s.halt (.stackOverflow s.pc))

/-- `Pop()` of R38: decrement, then read; an empty stack halts. The entry is not cleared. -/
def State.pop (s : State) : Except State (Word × State) :=
  if h : 0 < s.sp.val then
    .ok (s.stack[s.sp.val - 1]'(by omega), { s with sp := ⟨s.sp.val - 1, by omega⟩ })
  else .error (s.halt (.stackUnderflow s.pc))

/-! ### Data accesses of an instruction: one byte each (20_memory R78, R83) -/

/-- `MemWrite(a, 1, b)` by the interpreter: a bus fault halts. -/
def State.storeByte (s : State) (a : Nat) (b : Byte) : Except State State :=
  match busWrite s.map s.mem a 1 b.toNat with
  | .ok m => .ok (s.setMem m)
  | .error k => .error (s.halt (.busFault k .write a 1 s.pc))

/-- `MemRead(a, 1)` by the interpreter into `V[x]`: a bus fault halts. -/
def State.loadByte (s : State) (x : Nibble) (a : Nat) : Except State State :=
  match busRead s.map s.mem a 1 with
  | .ok v => .ok (s.setV x (BitVec.ofNat 8 v))
  | .error k => .error (s.halt (.busFault k .read a 1 s.pc))

/-- Store `f 0` … `f (n-1)` at `a`, `a + 1`, …, in ascending order; the first fault halts and the stores before it
remain (46_misc R255, R256, decision D21). -/
def State.storeRun (s : State) (a : Nat) (f : Nat → Byte) : Nat → Except State State
  | 0 => .ok s
  | n + 1 =>
    match s.storeRun a f n with
    | .ok t => t.storeByte (a + n) (f n)
    | .error h => .error h

/-- Load V0 … V(n-1) from `a`, `a + 1`, …, in ascending order; the first fault halts and the loads before it remain
(46_misc R257, decision D21). -/
def State.loadRun (s : State) (a : Nat) : Nat → Except State State
  | 0 => .ok s
  | n + 1 =>
    match s.loadRun a n with
    | .ok t => t.loadByte (BitVec.ofNat 4 n) (a + n)
    | .error h => .error h

/-! ### Fetch (40_cycle R142) -/

/-- `Fetch(pc)`: one 2-byte big-endian bus read. -/
def State.fetch (s : State) : Except BusFaultKind Word :=
  match busRead s.map s.mem s.pc.toNat 2 with
  | .ok v => .ok (BitVec.ofNat 16 v)
  | .error k => .error k

/-- Place the first `nbits` bits of a word (every bit above them 0) at pc, in the order the fetch reads them. -/
def State.placeWord (s : State) (nbits w : Nat) : State :=
  s.setMem (Memory.writeBytes s.mem s.pc.toNat (bytesOfWord (BitVec.ofNat 16 (w % 2 ^ nbits))))

end Sys2Proof.Machine
end

