-- ==== Sys2Proof/Machine/Flags.lean ====
section
/-! DEFINITION. The two flag computations of the machine and the order in which a result and its flag are written
(10_state R33, 43_alu R200, R205, R206). -/
namespace Sys2Proof.Machine

/-- VF's index (00_scope R10 `FLAG_REG`). -/
def flagReg : Nibble := 0xF

/-- A flag is written as 1 or 0. -/
def flagByte (c : Bool) : Byte := if c then 1 else 0

/-- Carry of an 8-bit addition: `a + b > 255` over the integers (R205). -/
def addCarry (a b : Byte) : Bool := decide (255 < a.toNat + b.toNat)

/-- No borrow of an 8-bit subtraction: `a ≥ b` (R206). -/
def subNotBorrow (a b : Byte) : Bool := decide (b.toNat ≤ a.toNat)

/-- Write the result to `V[X]` first and the flag to VF last, so that VF holds the flag when X = F (R200,
decision D13). -/
def State.setWithFlag (s : State) (x : Nibble) (result : Byte) (flag : Bool) : State :=
  (s.setV x result).setV flagReg (flagByte flag)

end Sys2Proof.Machine
end

