-- ==== Sys2Proof/Machine/Operands.lean ====
section
/-! DEFINITION. The operand forms that are more than a register or a field: skip conditions, computed addresses,
decimal digits, key names and the hexadecimal text they share with the disassembler. -/
namespace Sys2Proof.Machine

/-- NNN widened with zeros to the program counter's width (30_encoding R112). -/
def jumpTarget (nnn : Addr) : Word := nnn.setWidth 16

/-- `NNN + V[0]`, not masked to 12 bits (44_classA_D R221, decision D24). -/
def offsetTarget (nnn : Addr) (v0 : Byte) : Word := nnn.setWidth 16 + v0.setWidth 16

/-- `I` as an integer address: `I + k` is then a sum of integers, with no wrap (decision D40). -/
def indexAddr (s : State) : Nat := s.i.toNat

/-- `(I + V[X]) & 0xFFF` (46_misc R253, decision D22). -/
def indexSum (i : Addr) (v : Byte) : Addr := i + v.setWidth 12

/-- 00_scope R10 `GLYPH_HEIGHT` (decision D23). -/
def glyphHeight : Nat := 5

/-- 00_scope R10 `FONT_BASE` (decision D23). -/
def fontBase : Nat := 0

/-- `(FONT_BASE + V[X] * GLYPH_HEIGHT) & 0xFFF` (46_misc R254). -/
def glyphAddr (v : Byte) : Addr := BitVec.ofNat 12 (fontBase + v.toNat * glyphHeight)

/-- The decimal digits of a byte, hundreds at 0, tens at 1, units at 2 (46_misc R255). -/
def bcdDigit (v : Byte) (k : Nat) : Byte :=
  match k with
  | 0 => BitVec.ofNat 8 (v.toNat / 100)
  | 1 => BitVec.ofNat 8 (v.toNat / 10 % 10)
  | _ => BitVec.ofNat 8 (v.toNat % 10)

/-- `V[k]` by number, as the block store reads it (46_misc R256). -/
def regAt (s : State) (k : Nat) : Byte := s.getV (BitVec.ofNat 4 k)

/-- One uppercase hexadecimal digit (47_inspection R292). -/
def hexDigit (n : Nat) : Char :=
  if n % 16 < 10 then Char.ofNat (48 + n % 16) else Char.ofNat (55 + n % 16)

/-- `digits` uppercase hexadecimal digits, with leading zeros (47_inspection R292, R293). -/
def hexChars : Nat → Nat → List Char
  | 0, _ => []
  | digits + 1, n => hexChars digits (n / 16) ++ [hexDigit n]

/-- A fixed number of hexadecimal digits as text. -/
def hexText (digits n : Nat) : String := String.ofList (hexChars digits n)

/-- `KeyName(v)` of 45_key R242: uppercase hexadecimal without prefix and without leading zeros. -/
def keyName (v : Byte) : String :=
  if v.toNat < 16 then hexText 1 v.toNat else hexText 2 v.toNat

end Sys2Proof.Machine
end

