-- ==== Sys2Proof/Machine/Alu.lean ====
section
/-! DEFINITION. Class 8: ALU register-register (43_alu). Both operands are read before anything is written (R200). -/
namespace Sys2Proof.Machine

/-- LD Vx, Vy (R201). -/
def execLdReg (x y : Nibble) (s : State) : Result := .next (s.setV x (s.getV y)).next

/-- OR Vx, Vy (R202): no flag (decision D43). -/
def execOrReg (x y : Nibble) (s : State) : Result := .next (s.setV x (s.getV x ||| s.getV y)).next

/-- AND Vx, Vy (R203): no flag (decision D43). -/
def execAndReg (x y : Nibble) (s : State) : Result := .next (s.setV x (s.getV x &&& s.getV y)).next

/-- XOR Vx, Vy (R204): no flag (decision D43). -/
def execXorReg (x y : Nibble) (s : State) : Result := .next (s.setV x (s.getV x ^^^ s.getV y)).next

/-- ADD Vx, Vy (R205): wraps modulo 256, VF is the carry and is written last. -/
def execAddReg (x y : Nibble) (s : State) : Result :=
  .next (s.setWithFlag x (s.getV x + s.getV y) (addCarry (s.getV x) (s.getV y))).next

/-- SUB Vx, Vy (R206): wraps modulo 256, VF is not-borrow and is written last. -/
def execSubReg (x y : Nibble) (s : State) : Result :=
  .next (s.setWithFlag x (s.getV x - s.getV y) (subNotBorrow (s.getV x) (s.getV y))).next

end Sys2Proof.Machine
end

