-- ==== Sys2Proof/Machine/Control.lean ====
section
/-! DEFINITION. Classes 0, 1 and 2: system, jump, call (41_class0_2). -/
namespace Sys2Proof.Machine

/-- CLS (R160): emit `Clear`, advance. -/
def execCls (s : State) : Result := .next (s.emit .clear).next

/-- RET (R161): pop, then resume after the call. -/
def execRet (s : State) : Result :=
  match s.pop with
  | .ok (a, t) => .next (t.setPc (a + 2))
  | .error h => .next h

/-- JP NNN (R162). -/
def execJp (nnn : Addr) (s : State) : Result := .next (s.setPc (jumpTarget nnn))

/-- CALL NNN (R163): push this instruction's own address, then jump. -/
def execCall (nnn : Addr) (s : State) : Result :=
  match s.push s.pc with
  | .ok t => .next (t.setPc (jumpTarget nnn))
  | .error h => .next h

end Sys2Proof.Machine
end

