-- ==== Sys2Proof/Machine/Immediate.lean ====
section
/-! DEFINITION. Classes 3 to 7: skips, load and add immediate (42_class3_7). -/
namespace Sys2Proof.Machine

/-- SE Vx, NN (R180). -/
def execSeImm (x : Nibble) (nn : Byte) (s : State) : Result := .next (s.skipIf (s.getV x == nn))

/-- SNE Vx, NN (R181). -/
def execSneImm (x : Nibble) (nn : Byte) (s : State) : Result := .next (s.skipIf (s.getV x != nn))

/-- SE Vx, Vy (R182). -/
def execSeReg (x y : Nibble) (s : State) : Result := .next (s.skipIf (s.getV x == s.getV y))

/-- LD Vx, NN (R183). -/
def execLdImm (x : Nibble) (nn : Byte) (s : State) : Result := .next (s.setV x nn).next

/-- ADD Vx, NN (R184): 8-bit wraparound, no flag. -/
def execAddImm (x : Nibble) (nn : Byte) (s : State) : Result := .next (s.setV x (s.getV x + nn)).next

end Sys2Proof.Machine
end

