-- ==== Sys2Proof/Machine/IndexDraw.lean ====
section
/-! DEFINITION. Classes A to D: index, offset jump, random, draw (44_classA_D). -/
namespace Sys2Proof.Machine

/-- LD I, NNN (R220). -/
def execLdI (nnn : Addr) (s : State) : Result := .next (s.setI nnn).next

/-- JP V0, NNN (R221): always V0, the sum not masked. -/
def execJpV0 (nnn : Addr) (s : State) : Result := .next (s.setPc (offsetTarget nnn (s.getV 0)))

/-- RND Vx, NN (R222): one draw, masked by NN; the draw is taken even when NN = 0. -/
def execRnd (x : Nibble) (nn : Byte) (s : State) : Result :=
  .next ((s.drawn).setV x (s.randomByte &&& nn)).next

/-- DRW Vx, Vy, N (R223): one event to the graphics collaborator; VF and memory are not touched (decision D28). -/
def execDrw (x y n : Nibble) (s : State) : Result :=
  .next (s.emit (.draw (s.getV x) (s.getV y) n s.i)).next

end Sys2Proof.Machine
end

