-- ==== Sys2Proof/Machine/Key.lean ====
section
/-! DEFINITION. Class E: key tests (45_key). -/
namespace Sys2Proof.Machine

/-- SKP Vx (R240): skip if the key named by `V[X]` is down. -/
def execSkp (x : Nibble) (s : State) : Result :=
  .next ((s.queryKey (keyName (s.getV x))).skipIf s.keyAnswer)

/-- SKNP Vx (R241): skip if the key named by `V[X]` is not down. -/
def execSknp (x : Nibble) (s : State) : Result :=
  .next ((s.queryKey (keyName (s.getV x))).skipIf (!s.keyAnswer))

end Sys2Proof.Machine
end

