-- ==== Sys2Proof/Machine/Misc.lean ====
section
/-! DEFINITION. Class F: timers, index arithmetic, BCD, register block transfer (46_misc). -/
namespace Sys2Proof.Machine

/-- LD Vx, DT (R250). -/
def execLdVxDT (x : Nibble) (s : State) : Result := .next (s.setV x s.dt).next

/-- LD DT, Vx (R251). -/
def execLdDTVx (x : Nibble) (s : State) : Result := .next (s.setDT (s.getV x)).next

/-- LD ST, Vx (R252). -/
def execLdSTVx (x : Nibble) (s : State) : Result := .next (s.setST (s.getV x)).next

/-- ADD I, Vx (R253): 12-bit wrap, VF not written (decision D22). -/
def execAddI (x : Nibble) (s : State) : Result := .next (s.setI (indexSum s.i (s.getV x))).next

/-- LD F, Vx (R254): the whole byte times the glyph height. -/
def execLdF (x : Nibble) (s : State) : Result := .next (s.setI (glyphAddr (s.getV x))).next

/-- LD B, Vx (R255): hundreds, tens and units at I, I + 1, I + 2; I is unchanged. -/
def execLdB (x : Nibble) (s : State) : Result :=
  State.complete (s.storeRun (indexAddr s) (bcdDigit (s.getV x)) 3)

/-- LD [I], Vx (R256): store V0 to VX at I onward; I is unchanged. -/
def execLdMemVx (x : Nibble) (s : State) : Result :=
  State.complete (s.storeRun (indexAddr s) (regAt s) (x.toNat + 1))

/-- LD Vx, [I] (R257): load V0 to VX from I onward; I is unchanged. -/
def execLdVxMem (x : Nibble) (s : State) : Result :=
  State.complete (s.loadRun (indexAddr s) (x.toNat + 1))

end Sys2Proof.Machine
end

