-- ==== Sys2Proof/Machine/Cycle.lean ====
section
/-! DEFINITION. The tick (40_cycle R140 to R147). -/
namespace Sys2Proof.Machine

/-- What the end of a tick does with what the instruction answered: count a completed instruction (R146). -/
def retireResult : Result → Result
  | .next s => .next s.retire
  | .fault f => .fault f
  | .refused r => .refused r

/-- Decode and execute a fetched word; an unknown opcode halts (R143, R144). -/
def State.execWord (s : State) (op : Word) : Result :=
  match decode op with
  | .ok i => retireResult (exec i s)
  | .error _ => .next (s.halt (.unknownOpcode op s.pc))

/-- `tick()` (R140): a no-op when halted (R141); else fetch, decode, execute, count. -/
def State.tick (s : State) : Result :=
  match s.run with
  | .halted _ => .next s
  | .running =>
    match s.fetch with
    | .error k => .next (s.halt (.busFault k .fetch s.pc.toNat 2 s.pc))
    | .ok op => s.execWord op

end Sys2Proof.Machine
end

