-- ==== Sys2Proof/WellFormed.lean ====
section
/-! DEFINITION. The checks on what the machine is given. An instruction term needs none: each operand's type is
exactly its field's width, and every value of every field is legal (30_encoding R112: "X and Y … may be any of
0x0–0xF"). What can be ill formed is the memory map (20_memory R75) and the launch (70_reset_and_hazards R361). -/
namespace Sys2Proof

/-- 00_scope R10: the capacities the default map of 20_memory R80 admits. -/
abbrev romCapacityWf (romCapacity : Nat) : Prop := 1 ≤ romCapacity ∧ Config.romBase + romCapacity ≤ Config.addrSpaceSize

/-- Two mappings cover disjoint address ranges (R75). -/
abbrev Mapping.disjoint (a b : Mapping) : Prop :=
  a.base + a.size ≤ b.base ∨ b.base + b.size ≤ a.base

/-- One mapping is legal by itself: a capacity of at least one byte (R70) that ends below 0x10000 (R75). -/
abbrev Mapping.wf (m : Mapping) : Prop :=
  1 ≤ m.size ∧ m.base + m.size ≤ 0x10000

/-- A valid map (R75): legal mappings with pairwise disjoint ranges. -/
abbrev mapWf (map : List Mapping) : Prop :=
  (∀ m ∈ map, m.wf) ∧ map.Pairwise Mapping.disjoint

/-- Some mapping of the map covers the address. -/
abbrev mapped (map : List Mapping) (a : Nat) : Prop :=
  ∃ m ∈ map, m.base ≤ a ∧ a < m.base + m.size

/-- A launch that constructs a system (R361): a valid map, a region at `romBase` the image fits into (R73), and
initial bytes listed in the memory's form, at mapped addresses only (R81). For a map other than the default one the
spec does not say which region is the ROM region: that any region qualifies, writable or read-only and at any base, is
the model's (DESIGN CHOICE, SAFE: log entry 18). -/
abbrev Launch.wf (l : Launch) : Prop :=
  mapWf l.map ∧
  (∃ m ∈ l.map, m.base = l.romBase ∧ l.romImage.length ≤ m.size) ∧
  l.memInit.Pairwise (fun c d => c.1 < d.1) ∧
  ∀ c ∈ l.memInit, c.2 ≠ 0 ∧ mapped l.map c.1

end Sys2Proof
end

