-- ==== Sys2Proof/Machine/HostActions.lean ====
section
/-! DEFINITION. Construction of the system (70_reset_and_hazards R361), `init()` (R360), and the host's actions
between ticks (60_exceptions R328, R335). -/
namespace Sys2Proof.Machine

/-- `init()` (R360): memory, the map and what the host does next are not touched; the stack's entries are
unspecified, a free value (log entry 3); the trace is empty after it (10_state R46; DEDUCED, log entry 11). -/
def State.init (s : State) : State :=
  { s with
    pc := Config.programLoadAddress
    sp := 0
    i := 0
    dt := 0
    st := 0
    v := s.vInit
    stack := Config.stackAfterInit s.draws
    icount := 0
    run := .running
    trace := []
    draws := s.draws + 1 }

/-- The host's stop request (R328): no diagnostic and no stop signal; nothing changes when halted. -/
def State.stop (s : State) : State :=
  match s.run with
  | .running => { s with run := .halted .externalStop }
  | .halted _ => s

/-- A timer counts down and stays at 0 (R335). -/
def countDown (b : Byte) : Byte := if b = 0 then 0 else b - 1

/-- `TimerDecrement()` (R335). -/
def State.timerDecrement (s : State) : State := { s with dt := countDown s.dt, st := countDown s.st }

/-- One host action (R328). `Inspect` changes nothing; what it reads is in Machine/Inspect.lean. -/
def State.takeAction (s : State) : HostAction → Result
  | .tick => s.tick
  | .init => .next s.init
  | .stop => .next s.stop
  | .timerDecrement => .next s.timerDecrement
  | .inspect => .next s

/-- The next host action: the first one planned, or a tick when none is planned (log entry 7). -/
def State.nextAction (s : State) : Result :=
  match s.hostPlan with
  | [] => s.takeAction .tick
  | a :: rest => State.takeAction { s with hostPlan := rest } a

/-- System construction (R361): create the regions with `MEM_INIT`, load the image into the region at `romBase` (all
or nothing), build the bus, call `init()`. `none` when there is no such region or the image does not fit: the system
is not constructed and no tick runs (decision D38). Finding the region by its base, with none there constructing
nothing, is log entry 17; that the region may be writable is log entry 18 (each a DESIGN CHOICE, SAFE). -/
def construct (l : Launch) : Option State :=
  match l.map.find? (fun r => r.base == l.romBase) with
  | none => none
  | some r =>
    match regionLoadData r l.memInit l.romImage with
    | .error _ => none
    | .ok m => some { State.reset with mem := m, map := l.map, vInit := l.vInit }.init

end Sys2Proof.Machine
end

