-- ==== Sys2Proof/Machine/Step.lean ====
section
/-! DEFINITION. One step: the host's next action, a tick unless the host plans another (60_exceptions R328). -/
namespace Sys2Proof.Machine

def step (s : State) : Host.Outcome State Fault Refusal := s.nextAction

/-- The state in which the very next step fetches and runs the word: its bytes stand at pc, the interpreter runs, and
the host plans nothing before its next tick. It stands for the load of `ROM_IMAGE` (R361; log entry 8). -/
def State.withFetchWord (s : State) (nbits w : Nat) : State :=
  { s.placeWord nbits w with run := .running, hostPlan := [] }

end Sys2Proof.Machine
end

