-- ==== Sys2Proof/Machine/Inspect.lean ====
section
/-! DEFINITION. Inspection only: the disassembler, the disassembly sequence and the register snapshot
(47_inspection). Nothing here changes a state. -/
namespace Sys2Proof.Machine

/-- A register's name in text: V and one uppercase digit (R292). -/
def regText (x : Nibble) : String := "V" ++ hexText 1 x.toNat

/-- A byte as text, `0xnn` (R292). -/
def byteText (nn : Byte) : String := "0x" ++ hexText 2 nn.toNat

/-- An address field as text, `0xnnn` (R292). -/
def addrText (nnn : Addr) : String := "0x" ++ hexText 3 nnn.toNat

/-- The text template of each instruction (R292). -/
def instrText : Instr → String
  | .cls => "CLS"
  | .ret => "RET"
  | .jp nnn => "JP " ++ addrText nnn
  | .call nnn => "CALL " ++ addrText nnn
  | .seImm x nn => "SE " ++ regText x ++ ", " ++ byteText nn
  | .sneImm x nn => "SNE " ++ regText x ++ ", " ++ byteText nn
  | .seReg x y => "SE " ++ regText x ++ ", " ++ regText y
  | .ldImm x nn => "LD " ++ regText x ++ ", " ++ byteText nn
  | .addImm x nn => "ADD " ++ regText x ++ ", " ++ byteText nn
  | .ldReg x y => "LD " ++ regText x ++ ", " ++ regText y
  | .orReg x y => "OR " ++ regText x ++ ", " ++ regText y
  | .andReg x y => "AND " ++ regText x ++ ", " ++ regText y
  | .xorReg x y => "XOR " ++ regText x ++ ", " ++ regText y
  | .addReg x y => "ADD " ++ regText x ++ ", " ++ regText y
  | .subReg x y => "SUB " ++ regText x ++ ", " ++ regText y
  | .ldI nnn => "LD I, " ++ addrText nnn
  | .jpV0 nnn => "JP V0, " ++ addrText nnn
  | .rnd x nn => "RND " ++ regText x ++ ", " ++ byteText nn
  | .drw x y n => "DRW " ++ regText x ++ ", " ++ regText y ++ ", 0x" ++ hexText 1 n.toNat
  | .skp x => "SKP " ++ regText x
  | .sknp x => "SKNP " ++ regText x
  | .ldVxDT x => "LD " ++ regText x ++ ", DT"
  | .ldDTVx x => "LD DT, " ++ regText x
  | .ldSTVx x => "LD ST, " ++ regText x
  | .addI x => "ADD I, " ++ regText x
  | .ldF x => "LD F, " ++ regText x
  | .ldB x => "LD B, " ++ regText x
  | .ldMemVx x => "LD [I], " ++ regText x
  | .ldVxMem x => "LD " ++ regText x ++ ", [I]"

/-- `disassemble(op)` (R290, R291): the decoder's own recognition; an unknown word is `0x` and four digits (R293). -/
def disassemble (op : Word) : String :=
  match decode op with
  | .ok i => instrText i
  | .error _ => "0x" ++ hexText 4 op.toNat

/-- The entries of a listing from an integer address, stopping at the first one whose two bytes cannot be read
(R294, decision D32). -/
def listingFrom (s : State) (a : Nat) : Nat → List (Nat × String)
  | 0 => []
  | count + 1 =>
    match busRead s.map s.mem a 2 with
    | .error _ => []
    | .ok op => (a, disassemble (BitVec.ofNat 16 op)) :: listingFrom s (a + 2) count

/-- `Disassembly(count)` (R294), read afresh from pc at each call (R295). -/
def disassembly (s : State) (count : Nat) : List (Nat × String) := listingFrom s s.pc.toNat count

/-- The semantic kinds of a snapshot entry (R296). -/
inductive SnapshotKind where
  | programCounter
  | stackPointer
  | index
  | general
  deriving DecidableEq, Repr

/-- One tuple of the register snapshot (R296). -/
structure SnapshotEntry where
  name : String
  value : Nat
  displayWidth : Nat
  kind : SnapshotKind
  deriving DecidableEq, Repr

/-- The register snapshot (R296): PC, SP, I, then V0 to VF; a copy of the values at the call (R297). -/
def snapshot (s : State) : List SnapshotEntry :=
  [⟨"PC", s.pc.toNat, 4, .programCounter⟩, ⟨"SP", s.sp.val, 2, .stackPointer⟩, ⟨"I", s.i.toNat, 3, .index⟩] ++
    (List.range 16).map (fun k => ⟨regText (BitVec.ofNat 4 k), (regAt s k).toNat, 2, .general⟩)

/-- The executed-instruction counter as inspection reads it (60_exceptions R336). -/
def inspectCount (s : State) : BitVec 64 := s.icount

end Sys2Proof.Machine
end

