-- ==== Sys2Proof/Safety.lean ====
section
/-! DEFINITION. The terms claims use: which bytes can be read, written and fetched, the invariants of every state a
system can reach, and the runs themselves. -/
namespace Sys2Proof.Machine

/-- The byte at an address can be read: some region owns it (20_memory R76, R91). -/
def State.canRead (s : State) (a : Nat) : Bool := (ownerOf s.map a).isSome

/-- The byte at an address can be written: a writable region owns it (R77, R91). -/
def State.canWrite (s : State) (a : Nat) : Bool :=
  match ownerOf s.map a with
  | some r => r.mutable
  | none => false

/-- The two bytes at an address can be fetched: one region owns both (R76). -/
def State.canFetch (s : State) (a : Nat) : Bool :=
  match ownerOf s.map a with
  | some r => decide (a + 2 ≤ r.base + r.size)
  | none => false

/-- The word at an address, its first byte the more significant (R82). -/
def State.wordAt (s : State) (a : Nat) : Word :=
  wordOfBytes (Memory.read s.mem a) (Memory.read s.mem (a + 1))

/-- What a bus fault of a write at `a` is, when the byte cannot be written (R77): `Unmapped` comes first. -/
def State.writeFault (s : State) (a : Nat) : BusFaultKind := if s.canRead a then .readOnly else .unmapped

/-- The memory invariant: the canonical form, only bytes of regions listed, and a valid map (R42, R75). -/
abbrev State.MemInv (s : State) : Prop :=
  Memory.wf s.mem ∧ (∀ c ∈ s.mem, s.canRead c.1 = true) ∧ mapWf s.map

/-- An event of the halt procedure (60_exceptions R321). -/
def Event.isHaltReport : Event → Bool
  | .diagnostic _ => true
  | .stopSignal => true
  | _ => false

/-- The halt-procedure events a trace holds for a run state: one diagnostic of the reason and one stop signal, none
while running and none for the host's own stop (R321, R328). -/
def haltReports : RunState → List Event
  | .running => []
  | .halted .externalStop => []
  | .halted r => [.diagnostic r, .stopSignal]

/-- The pc a halt reason records (R320). -/
def HaltReason.recordedPc : HaltReason → Option Word
  | .unknownOpcode _ pc => some pc
  | .busFault _ _ _ _ pc => some pc
  | .stackOverflow pc => some pc
  | .stackUnderflow pc => some pc
  | .externalStop => none

/-- The halt invariant: the trace reports exactly the halt the run state holds, and pc still is the address that halt
records (R321, R322). -/
abbrev State.HaltInv (s : State) : Prop :=
  s.trace.filter Event.isHaltReport = haltReports s.run ∧
  ∀ r, s.run = .halted r → ∀ pc, r.recordedPc = some pc → s.pc = pc

/-- The result of an instruction that writes registers and advances: every other element is unchanged. -/
abbrev onlyRegsAdvanced (s t : State) : Prop := t = { s with v := t.v, pc := s.pc + 2 }

/-- The instruction writes `V[y]` as its destination register (10_state R47, first row). -/
def writesReg : Instr → Nibble → Bool
  | .ldImm x _, y => y == x
  | .addImm x _, y => y == x
  | .ldReg x _, y => y == x
  | .orReg x _, y => y == x
  | .andReg x _, y => y == x
  | .xorReg x _, y => y == x
  | .addReg x _, y => y == x
  | .subReg x _, y => y == x
  | .rnd x _, y => y == x
  | .ldVxDT x, y => y == x
  | .ldVxMem x, y => decide (y ≤ x)
  | .cls, _ => false
  | .ret, _ => false
  | .jp _, _ => false
  | .call _, _ => false
  | .seImm _ _, _ => false
  | .sneImm _ _, _ => false
  | .seReg _ _, _ => false
  | .ldI _, _ => false
  | .jpV0 _, _ => false
  | .drw _ _ _, _ => false
  | .skp _, _ => false
  | .sknp _, _ => false
  | .ldDTVx _, _ => false
  | .ldSTVx _, _ => false
  | .addI _, _ => false
  | .ldF _, _ => false
  | .ldB _, _ => false
  | .ldMemVx _, _ => false

/-- The instruction is one of the two that define a flag (10_state R33). -/
abbrev definesFlag (i : Instr) : Prop := (∃ x y, i = .addReg x y) ∨ ∃ x y, i = .subReg x y

/-- The instruction writes memory (10_state R47). -/
abbrev writesMemory (i : Instr) : Prop := (∃ x, i = .ldB x) ∨ ∃ x, i = .ldMemVx x

/-- The instruction writes the index register (10_state R47). -/
abbrev writesIndex (i : Instr) : Prop := (∃ nnn, i = .ldI nnn) ∨ (∃ x, i = .addI x) ∨ ∃ x, i = .ldF x

/-- Two states that differ at most in the call-stack entries not in use (10_state R45). -/
def sameButDeadStack (s t : State) : Prop :=
  t = { s with stack := t.stack } ∧ ∀ k, (h : k < 16) → k < s.sp.val → t.stack[k] = s.stack[k]

/-- The states of the runs of a system: from its construction, by any host actions (70_reset_and_hazards R367). -/
inductive Reachable (l : Launch) : State → Prop where
  | start (s : State) (plan : List HostAction) (h : construct l = some s) : Reachable l { s with hostPlan := plan }
  | step (s t : State) (hs : Reachable l s) (h : step s = .next t) : Reachable l t

end Sys2Proof.Machine
end

