-- ==== Sys2Proof/Certificates/Slice0/Obligations.lean ====
section
/-! DEFINITION. The statements for the provers, from the spec's numbered rules. -/
open Sys2Proof Sys2Proof.Machine

/-! ### Encoding and decode -/

/-- Words written out from the examples of R292 and R293 decode to the instruction they stand for. -/
def Obligations.HandEncodedWordsDecode : Prop :=
  decode 0x00E0 = .ok .cls ∧ decode 0x2300 = .ok (.call 0x300) ∧ decode 0x3A05 = .ok (.seImm 0xA 0x05) ∧
  decode 0x8014 = .ok (.addReg 0 1) ∧ decode 0xD125 = .ok (.drw 1 2 5) ∧ decode 0xE59E = .ok (.skp 5) ∧
  decode 0xF265 = .ok (.ldVxMem 2) ∧ decode 0x8006 = .error (.unknownOpcode 0x8006)

/-- Decoding an encoded instruction gives it back, for every instruction and every operand value (R111, R112, R113). -/
def Obligations.DecodeOfEncodeIsIdentity : Prop :=
  ∀ i : Instr, decode (encode i) = .ok i

/-- A word that decodes lies in its instruction's row and agrees with that instruction's encoding on every bit that is
not a don't-care (R113, R114, R116). -/
def Obligations.DecodedWordAgreesWithEncoding : Prop :=
  ∀ (op : Word) (i : Instr), decode op = .ok i →
    op &&& (rowOf i).1 = (rowOf i).2 ∧ op &&& ~~~ dontCare i = encode i &&& ~~~ dontCare i

/-- A word decodes exactly when it lies in some row, and no word lies in two rows (R114). -/
def Obligations.OneRowPerDecodedWord : Prop :=
  (∀ op : Word, (∃ i, decode op = .ok i) ↔ ∃ i, op &&& (rowOf i).1 = (rowOf i).2) ∧
  ∀ (op : Word) (i j : Instr), op &&& (rowOf i).1 = (rowOf i).2 → op &&& (rowOf j).1 = (rowOf j).2 → rowOf i = rowOf j

/-- The unknown words are exactly those of R115's table, by class and sub-field, and each is rejected by name. -/
def Obligations.UnknownWordsAreTheTables : Prop :=
  ∀ op : Word, decode op = .error (.unknownOpcode op) ↔
    (op.toNat / 4096 = 0x0 ∧ op.toNat % 256 ∉ [0xE0, 0xEE]) ∨
    (op.toNat / 4096 = 0x8 ∧ 0x6 ≤ op.toNat % 16) ∨
    op.toNat / 4096 = 0x9 ∨
    (op.toNat / 4096 = 0xE ∧ op.toNat % 16 ∉ [0xE, 0x1]) ∨
    (op.toNat / 4096 = 0xF ∧ op.toNat % 256 ∉ [0x07, 0x15, 0x18, 0x1E, 0x29, 0x33, 0x55, 0x65])

/-! ### The tick -/

/-- When the bytes at pc decode to an instruction, a step that ticks is `exec` of it and then the counter (R140, R142,
R146). The host ticks when it plans nothing, or plans a tick first (log entry 7). -/
def Obligations.StepRunsDecodedInstruction : Prop :=
  ∀ (s : State) (i : Instr) (rest : List HostAction), s.run = .running → s.canFetch s.pc.toNat = true →
    decode (wordOfBytes (Memory.read s.mem s.pc.toNat) (Memory.read s.mem (s.pc.toNat + 1))) = .ok i →
    (s.hostPlan = [] → step s = retireResult (exec i s)) ∧
    (s.hostPlan = .tick :: rest → step s = retireResult (exec i { s with hostPlan := rest }))

/-- A tick in Halted changes no state and emits no event (R141). That a step with no plan is a tick, and that a planned
tick only uses up its place in the plan, is the model's choice (log entry 7). -/
def Obligations.HaltedTickChangesNothing : Prop :=
  ∀ (s : State) (r : HaltReason) (rest : List HostAction), s.run = .halted r →
    s.tick = .next s ∧ (s.hostPlan = [] → step s = .next s) ∧
    (s.hostPlan = .tick :: rest → step s = .next { s with hostPlan := rest })

/-- The fetch is one 2-byte big-endian read at pc; where it faults, the tick halts with that bus fault, whatever the
bytes are (R142). -/
def Obligations.FetchReadsTwoBytesOrHalts : Prop :=
  ∀ s : State,
    (s.canFetch s.pc.toNat = true → s.fetch = .ok (s.wordAt s.pc.toNat)) ∧
    (∀ k, (k = .unmapped ∧ ownerOf s.map s.pc.toNat = none ∨
        k = .straddle ∧ ∃ r, ownerOf s.map s.pc.toNat = some r ∧ r.base + r.size < s.pc.toNat + 2) →
      s.run = .running →
      s.tick = .next { s with
        run := .halted (.busFault k .fetch s.pc.toNat 2 s.pc)
        trace := s.trace ++ [.diagnostic (.busFault k .fetch s.pc.toNat 2 s.pc), .stopSignal] })

/-- An unknown opcode halts the tick: pc, registers, memory and icount keep their values, and one diagnostic and one
stop signal are emitted (R144). -/
def Obligations.UnknownOpcodeHalts : Prop :=
  ∀ (s : State) (op : Word), s.run = .running → s.fetch = .ok op → (∀ i, decode op ≠ .ok i) →
    s.tick = .next { s with
      run := .halted (.unknownOpcode op s.pc)
      trace := s.trace ++ [.diagnostic (.unknownOpcode op s.pc), .stopSignal] }

/-- A tick counts one instruction exactly when it starts and ends in Running: not when it halts, and not in Halted
(R146). -/
def Obligations.CompletedTickCountsOnce : Prop :=
  ∀ s t : State, s.tick = .next t →
    t.icount = if s.run = .running ∧ t.run = .running then s.icount + 1 else s.icount

/-- Every step answers a next state: this hardware has no fault and no refusal of its own; every exceptional event is
the halt procedure (R320, R321). -/
def Obligations.EveryStepAnswersNext : Prop :=
  ∀ s : State, ∃ t, step s = .next t

/-- Halts are precise (R322): after an instruction that halts, everything is as before it but `run`, the trace (one
diagnostic of the reason, one stop signal) and what FX33, FX55 and FX65 did before the failing access. The reason
records that access at I + k; FX33 and FX55 have written exactly the k bytes from I up to it, every other byte as
before, and FX65 has loaded exactly the k registers below V[k], every other register as before. -/
def Obligations.HaltsArePrecise : Prop :=
  ∀ (i : Instr) (s t : State) (r : HaltReason), s.run = .running → exec i s = .next t → t.run = .halted r →
    t = { s with v := t.v, mem := t.mem, run := .halted r, trace := s.trace ++ [.diagnostic r, .stopSignal] } ∧
    (t.mem ≠ s.mem → writesMemory i) ∧ (t.v ≠ s.v → ∃ x, i = .ldVxMem x) ∧
    (∀ x, i = .ldB x → ∃ k < 3,
      r = .busFault (s.writeFault (indexAddr s + k)) .write (indexAddr s + k) 1 s.pc ∧
      ∀ a, Memory.read t.mem a =
        if indexAddr s ≤ a ∧ a < indexAddr s + k then bcdDigit (s.getV x) (a - indexAddr s) else Memory.read s.mem a) ∧
    (∀ x, i = .ldMemVx x → ∃ k ≤ x.toNat,
      r = .busFault (s.writeFault (indexAddr s + k)) .write (indexAddr s + k) 1 s.pc ∧
      ∀ a, Memory.read t.mem a =
        if indexAddr s ≤ a ∧ a < indexAddr s + k then regAt s (a - indexAddr s) else Memory.read s.mem a) ∧
    ∀ x, i = .ldVxMem x → ∃ k ≤ x.toNat,
      r = .busFault .unmapped .read (indexAddr s + k) 1 s.pc ∧
      ∀ y : Nibble, t.getV y = if y.toNat < k then Memory.read s.mem (indexAddr s + y.toNat) else s.getV y

/-- No tick leaves Halted; of the host's actions only `Init` does (R323, R328). -/
def Obligations.OnlyInitLeavesHalted : Prop :=
  ∀ (s t : State) (r : HaltReason), s.run = .halted r → step s = .next t →
    t.run = .halted r ∨ ∃ rest, s.hostPlan = .init :: rest

/-- A jump to its own address changes nothing but icount (R162's corner case, R367). -/
def Obligations.SelfJumpOnlyCounts : Prop :=
  ∀ s : State, s.run = .running → s.hostPlan = [] → s.canFetch s.pc.toNat = true → s.pc.toNat < 0x1000 →
    (s.wordAt s.pc.toNat).toNat = 0x1000 + s.pc.toNat → step s = .next { s with icount := s.icount + 1 }

/-! ### Classes 0, 1, 2 -/

/-- CLS emits `Clear` and advances; nothing else changes (R160). -/
def Obligations.ClsEmitsClear : Prop :=
  (∀ op, opClass op = 0x0 → opNN op = 0xE0 → decode op = .ok .cls) ∧
  ∀ s : State, exec .cls s = .next { s with trace := s.trace ++ [.clear], pc := s.pc + 2 }

/-- RET pops the stack and resumes two bytes after the popped address, the entry not cleared; with an empty stack it
halts (R161, R38). -/
def Obligations.RetPopsAndResumes : Prop :=
  (∀ op, opClass op = 0x0 → opNN op = 0xEE → decode op = .ok .ret) ∧
  ∀ s : State,
    (0 < s.sp.val → ∃ t, exec .ret s = .next t ∧ t = { s with pc := t.pc, sp := t.sp } ∧
      t.sp.val + 1 = s.sp.val ∧ ∀ k, (h : k < 16) → k + 1 = s.sp.val → t.pc = s.stack[k] + 2) ∧
    (s.sp.val = 0 → exec .ret s = .next { s with
      run := .halted (.stackUnderflow s.pc)
      trace := s.trace ++ [.diagnostic (.stackUnderflow s.pc), .stopSignal] })

/-- JP puts NNN in pc and changes nothing else (R162). -/
def Obligations.JumpSetsPc : Prop :=
  (∀ op, opClass op = 0x1 → decode op = .ok (.jp (opNNN op))) ∧
  ∀ (s : State) (nnn : Addr), ∃ t, exec (.jp nnn) s = .next t ∧ t = { s with pc := t.pc } ∧ t.pc.toNat = nnn.toNat

/-- CALL pushes its own address and jumps; with a full stack it halts and nothing else changes (R163, R37). -/
def Obligations.CallPushesOwnAddress : Prop :=
  (∀ op, opClass op = 0x2 → decode op = .ok (.call (opNNN op))) ∧
  ∀ (s : State) (nnn : Addr),
    (s.sp.val < 16 → ∃ t, exec (.call nnn) s = .next t ∧ t = { s with pc := t.pc, sp := t.sp, stack := t.stack } ∧
      t.pc.toNat = nnn.toNat ∧ t.sp.val = s.sp.val + 1 ∧
      ∀ k, (h : k < 16) → t.stack[k] = if k = s.sp.val then s.pc else s.stack[k]) ∧
    (s.sp.val = 16 → exec (.call nnn) s = .next { s with
      run := .halted (.stackOverflow s.pc)
      trace := s.trace ++ [.diagnostic (.stackOverflow s.pc), .stopSignal] })

/-- A call and the return from it resume after the call with everything but the stack's dead entry as before. -/
def Obligations.ReturnResumesAfterCall : Prop :=
  ∀ (s : State) (nnn : Addr), s.sp.val < 16 →
    ∃ t u, exec (.call nnn) s = .next t ∧ exec .ret t = .next u ∧
      u = { s with pc := s.pc + 2, stack := u.stack } ∧
      ∀ k, (h : k < 16) → k ≠ s.sp.val → u.stack[k] = s.stack[k]

/-! ### Classes 3 to 7 -/

/-- SE and SNE with an immediate skip the next word or not, and change only pc (R180, R181). -/
def Obligations.ImmediateSkipsCompareRegister : Prop :=
  (∀ op, opClass op = 0x3 → decode op = .ok (.seImm (opX op) (opNN op))) ∧
  (∀ op, opClass op = 0x4 → decode op = .ok (.sneImm (opX op) (opNN op))) ∧
  ∀ (s : State) (x : Nibble) (nn : Byte),
    exec (.seImm x nn) s = .next { s with pc := if s.getV x = nn then s.pc + 4 else s.pc + 2 } ∧
    exec (.sneImm x nn) s = .next { s with pc := if s.getV x ≠ nn then s.pc + 4 else s.pc + 2 }

/-- SE Vx, Vy skips exactly when the registers are equal, always when X = Y, and changes only pc (R182). -/
def Obligations.RegisterSkipComparesRegisters : Prop :=
  (∀ op, opClass op = 0x5 → decode op = .ok (.seReg (opX op) (opY op))) ∧
  ∀ (s : State) (x y : Nibble),
    exec (.seReg x y) s = .next { s with pc := if s.getV x = s.getV y then s.pc + 4 else s.pc + 2 } ∧
    exec (.seReg x x) s = .next { s with pc := s.pc + 4 }

/-- LD Vx, NN writes NN to V[X], VF included, and changes nothing else (R183). -/
def Obligations.LoadImmediateWritesRegister : Prop :=
  (∀ op, opClass op = 0x6 → decode op = .ok (.ldImm (opX op) (opNN op))) ∧
  ∀ (s : State) (x : Nibble) (nn : Byte), ∃ t, exec (.ldImm x nn) s = .next t ∧ onlyRegsAdvanced s t ∧
    ∀ y, t.getV y = if y = x then nn else s.getV y

/-- ADD Vx, NN wraps modulo 256 and updates no flag: every register but V[X] is unchanged (R184). -/
def Obligations.AddImmediateWrapsWithoutFlag : Prop :=
  (∀ op, opClass op = 0x7 → decode op = .ok (.addImm (opX op) (opNN op))) ∧
  ∀ (s : State) (x : Nibble) (nn : Byte), ∃ t, exec (.addImm x nn) s = .next t ∧ onlyRegsAdvanced s t ∧
    (t.getV x).toNat = ((s.getV x).toNat + nn.toNat) % 256 ∧ ∀ y, y ≠ x → t.getV y = s.getV y

/-! ### Class 8 -/

/-- LD, OR, AND and XOR write V[X] bit by bit from the old V[X] and V[Y] and leave every other register, VF included,
unchanged (R201, R202, R203, R204). -/
def Obligations.AssignAndLogicWriteOneRegister : Prop :=
  (∀ op, opClass op = 0x8 → opN op = 0x0 → decode op = .ok (.ldReg (opX op) (opY op))) ∧
  (∀ op, opClass op = 0x8 → opN op = 0x1 → decode op = .ok (.orReg (opX op) (opY op))) ∧
  (∀ op, opClass op = 0x8 → opN op = 0x2 → decode op = .ok (.andReg (opX op) (opY op))) ∧
  (∀ op, opClass op = 0x8 → opN op = 0x3 → decode op = .ok (.xorReg (opX op) (opY op))) ∧
  ∀ (s : State) (x y : Nibble), ∃ t₀ t₁ t₂ t₃,
    (exec (.ldReg x y) s = .next t₀ ∧ onlyRegsAdvanced s t₀ ∧ t₀.getV x = s.getV y) ∧
    (exec (.orReg x y) s = .next t₁ ∧ onlyRegsAdvanced s t₁ ∧
      ∀ k < 8, (t₁.getV x).getLsbD k = ((s.getV x).getLsbD k || (s.getV y).getLsbD k)) ∧
    (exec (.andReg x y) s = .next t₂ ∧ onlyRegsAdvanced s t₂ ∧
      ∀ k < 8, (t₂.getV x).getLsbD k = ((s.getV x).getLsbD k && (s.getV y).getLsbD k)) ∧
    (exec (.xorReg x y) s = .next t₃ ∧ onlyRegsAdvanced s t₃ ∧
      ∀ k < 8, (t₃.getV x).getLsbD k = ((s.getV x).getLsbD k ^^ (s.getV y).getLsbD k)) ∧
    ∀ z, z ≠ x → t₀.getV z = s.getV z ∧ t₁.getV z = s.getV z ∧ t₂.getV z = s.getV z ∧ t₃.getV z = s.getV z

/-- ADD Vx, Vy: V[X] is the sum modulo 256 and VF the carry, both from the old values; with X = F the flag is what
remains (R205, R200). -/
def Obligations.AddSetsCarry : Prop :=
  (∀ op, opClass op = 0x8 → opN op = 0x4 → decode op = .ok (.addReg (opX op) (opY op))) ∧
  ∀ (s : State) (x y : Nibble), ∃ t, exec (.addReg x y) s = .next t ∧ onlyRegsAdvanced s t ∧
    (x ≠ 0xF → (t.getV x).toNat = ((s.getV x).toNat + (s.getV y).toNat) % 256) ∧
    (t.getV 0xF).toNat = (if (s.getV x).toNat + (s.getV y).toNat > 255 then 1 else 0) ∧
    ∀ z, z ≠ x → z ≠ 0xF → t.getV z = s.getV z

/-- SUB Vx, Vy: V[X] is the difference modulo 256 and VF is 1 exactly when there is no borrow; with X = F the flag is
what remains (R206, R200). -/
def Obligations.SubSetsNotBorrow : Prop :=
  (∀ op, opClass op = 0x8 → opN op = 0x5 → decode op = .ok (.subReg (opX op) (opY op))) ∧
  ∀ (s : State) (x y : Nibble), ∃ t, exec (.subReg x y) s = .next t ∧ onlyRegsAdvanced s t ∧
    (x ≠ 0xF → ((t.getV x).toNat : Int) = (((s.getV x).toNat : Int) - ((s.getV y).toNat : Int)) % 256) ∧
    (t.getV 0xF).toNat = (if (s.getV x).toNat ≥ (s.getV y).toNat then 1 else 0) ∧
    ∀ z, z ≠ x → z ≠ 0xF → t.getV z = s.getV z

/-! ### Classes A to D -/

/-- LD I, NNN writes I and changes nothing else (R220). -/
def Obligations.LoadIndexWritesI : Prop :=
  (∀ op, opClass op = 0xA → decode op = .ok (.ldI (opNNN op))) ∧
  ∀ (s : State) (nnn : Addr), exec (.ldI nnn) s = .next { s with i := nnn, pc := s.pc + 2 }

/-- JP V0, NNN puts the unmasked sum of NNN and V0 in pc and changes nothing else (R221). -/
def Obligations.OffsetJumpAddsV0 : Prop :=
  (∀ op, opClass op = 0xB → decode op = .ok (.jpV0 (opNNN op))) ∧
  ∀ (s : State) (nnn : Addr), ∃ t, exec (.jpV0 nnn) s = .next t ∧ t = { s with pc := t.pc } ∧
    t.pc.toNat = nnn.toNat + (s.getV 0).toNat

/-- RND takes one draw, whatever byte it is, and writes it masked by NN to V[X]; bits cleared in NN are 0; no other
register changes (R222, R333). That the draw is the free value at the counter `draws`, which it advances, is the
model's choice (log entry 6). -/
def Obligations.RandomByteIsMasked : Prop :=
  (∀ op, opClass op = 0xC → decode op = .ok (.rnd (opX op) (opNN op))) ∧
  ∀ (s : State) (x : Nibble) (nn : Byte), ∃ t, exec (.rnd x nn) s = .next t ∧
    t = { s with v := t.v, pc := s.pc + 2, draws := s.draws + 1 } ∧
    t.getV x = Config.randomByte s.draws &&& nn ∧ (∀ k, nn.getLsbD k = false → (t.getV x).getLsbD k = false) ∧
    ∀ y, y ≠ x → t.getV y = s.getV y

/-- DRW emits one `Draw` of V[X], V[Y], N and I, reads no memory and writes neither VF nor anything else but pc
(R223). -/
def Obligations.DrawEmitsOneEvent : Prop :=
  (∀ op, opClass op = 0xD → decode op = .ok (.drw (opX op) (opY op) (opN op))) ∧
  ∀ (s : State) (x y n : Nibble),
    exec (.drw x y n) s = .next { s with trace := s.trace ++ [.draw (s.getV x) (s.getV y) n s.i], pc := s.pc + 2 }

/-! ### Class E -/

/-- SKP and SKNP ask for the key named by V[X], emit the query with its answer, whatever it is, and skip or not by it;
nothing else changes (R240, R241, R332). That the answer is the free value at the counter `draws`, which it advances,
is the model's choice (log entry 6). -/
def Obligations.KeySkipsFollowTheAnswer : Prop :=
  (∀ op, opClass op = 0xE → opN op = 0xE → decode op = .ok (.skp (opX op))) ∧
  (∀ op, opClass op = 0xE → opN op = 0x1 → decode op = .ok (.sknp (opX op))) ∧
  ∀ (s : State) (x : Nibble), ∃ k : Bool, k = Config.keyAnswer s.draws ∧
    exec (.skp x) s = .next { s with
      pc := if k then s.pc + 4 else s.pc + 2
      draws := s.draws + 1
      trace := s.trace ++ [.keyQuery (keyName (s.getV x)) k] } ∧
    exec (.sknp x) s = .next { s with
      pc := if k then s.pc + 2 else s.pc + 4
      draws := s.draws + 1
      trace := s.trace ++ [.keyQuery (keyName (s.getV x)) k] }

/-- The key's name is the register's value in uppercase hexadecimal, no prefix, no leading zeros (R242). -/
def Obligations.KeyNameIsUppercaseHex : Prop :=
  ∀ v : Byte, (keyName v).toList = (Nat.toDigits 16 v.toNat).map Char.toUpper

/-! ### Class F -/

/-- FX07 reads DT into V[X]; FX15 and FX18 write DT and ST from V[X]; nothing else changes (R250, R251, R252). -/
def Obligations.TimerMovesCopyOneByte : Prop :=
  (∀ op, opClass op = 0xF → opNN op = 0x07 → decode op = .ok (.ldVxDT (opX op))) ∧
  (∀ op, opClass op = 0xF → opNN op = 0x15 → decode op = .ok (.ldDTVx (opX op))) ∧
  (∀ op, opClass op = 0xF → opNN op = 0x18 → decode op = .ok (.ldSTVx (opX op))) ∧
  ∀ (s : State) (x : Nibble),
    (∃ t, exec (.ldVxDT x) s = .next t ∧ onlyRegsAdvanced s t ∧ ∀ y, t.getV y = if y = x then s.dt else s.getV y) ∧
    exec (.ldDTVx x) s = .next { s with dt := s.getV x, pc := s.pc + 2 } ∧
    exec (.ldSTVx x) s = .next { s with st := s.getV x, pc := s.pc + 2 }

/-- FX1E adds V[X] to I modulo 4096 and writes no flag; FX29 puts five times V[X] in I; nothing else changes (R253,
R254). -/
def Obligations.IndexArithmeticWraps : Prop :=
  (∀ op, opClass op = 0xF → opNN op = 0x1E → decode op = .ok (.addI (opX op))) ∧
  (∀ op, opClass op = 0xF → opNN op = 0x29 → decode op = .ok (.ldF (opX op))) ∧
  ∀ (s : State) (x : Nibble), ∃ t u,
    (exec (.addI x) s = .next t ∧ t = { s with i := t.i, pc := s.pc + 2 } ∧
      t.i.toNat = (s.i.toNat + (s.getV x).toNat) % 4096) ∧
    (exec (.ldF x) s = .next u ∧ u = { s with i := u.i, pc := s.pc + 2 } ∧ u.i.toNat = (s.getV x).toNat * 5)

/-- FX33: with three writable bytes at I it writes hundreds, tens and units there and completes, every other byte and
I unchanged; else it halts at its first byte that cannot be written, `Unmapped` or `ReadOnly`, the digits before it
written and nothing else changed (R255). -/
def Obligations.BcdStoresThreeDigits : Prop :=
  (∀ op, opClass op = 0xF → opNN op = 0x33 → decode op = .ok (.ldB (opX op))) ∧
  ∀ (s : State) (x : Nibble),
    ((∀ k < 3, s.canWrite (indexAddr s + k) = true) →
      ∃ t, exec (.ldB x) s = .next t ∧ t = { s with mem := t.mem, pc := s.pc + 2 } ∧
        (Memory.read t.mem (indexAddr s)).toNat = (s.getV x).toNat / 100 ∧
        (Memory.read t.mem (indexAddr s + 1)).toNat = (s.getV x).toNat / 10 % 10 ∧
        (Memory.read t.mem (indexAddr s + 2)).toNat = (s.getV x).toNat % 10 ∧
        ∀ a, a < indexAddr s ∨ indexAddr s + 3 ≤ a → Memory.read t.mem a = Memory.read s.mem a) ∧
    ∀ k < 3, (∀ j < k, s.canWrite (indexAddr s + j) = true) → s.canWrite (indexAddr s + k) = false →
      ∃ t, exec (.ldB x) s = .next t ∧
        t = { (s.halt (.busFault (s.writeFault (indexAddr s + k)) .write (indexAddr s + k) 1 s.pc)) with mem := t.mem } ∧
        (0 < k → (Memory.read t.mem (indexAddr s)).toNat = (s.getV x).toNat / 100) ∧
        (1 < k → (Memory.read t.mem (indexAddr s + 1)).toNat = (s.getV x).toNat / 10 % 10) ∧
        ∀ a, a < indexAddr s ∨ indexAddr s + k ≤ a → Memory.read t.mem a = Memory.read s.mem a

/-- FX55: with X + 1 writable bytes at I it stores V0 to VX there and completes, every other byte and I unchanged; else
it halts at its first byte that cannot be written, `Unmapped` or `ReadOnly`, the registers before it stored and nothing
else changed (R256). -/
def Obligations.BlockStoreWritesRegisters : Prop :=
  (∀ op, opClass op = 0xF → opNN op = 0x55 → decode op = .ok (.ldMemVx (opX op))) ∧
  ∀ (s : State) (x : Nibble),
    ((∀ k ≤ x.toNat, s.canWrite (indexAddr s + k) = true) →
      ∃ t, exec (.ldMemVx x) s = .next t ∧ t = { s with mem := t.mem, pc := s.pc + 2 } ∧
        (∀ y, y ≤ x → Memory.read t.mem (indexAddr s + y.toNat) = s.getV y) ∧
        ∀ a, a < indexAddr s ∨ indexAddr s + x.toNat + 1 ≤ a → Memory.read t.mem a = Memory.read s.mem a) ∧
    ∀ k ≤ x.toNat, (∀ j < k, s.canWrite (indexAddr s + j) = true) → s.canWrite (indexAddr s + k) = false →
      ∃ t, exec (.ldMemVx x) s = .next t ∧
        t = { (s.halt (.busFault (s.writeFault (indexAddr s + k)) .write (indexAddr s + k) 1 s.pc)) with mem := t.mem } ∧
        (∀ y : Nibble, y.toNat < k → Memory.read t.mem (indexAddr s + y.toNat) = s.getV y) ∧
        ∀ a, a < indexAddr s ∨ indexAddr s + k ≤ a → Memory.read t.mem a = Memory.read s.mem a

/-- FX65: with X + 1 readable bytes at I it loads V0 to VX from there and completes, every other register, memory and I
unchanged; else it halts at its first byte that cannot be read, the registers before it loaded and nothing else changed
(R257). -/
def Obligations.BlockLoadReadsRegisters : Prop :=
  (∀ op, opClass op = 0xF → opNN op = 0x65 → decode op = .ok (.ldVxMem (opX op))) ∧
  ∀ (s : State) (x : Nibble),
    ((∀ k ≤ x.toNat, s.canRead (indexAddr s + k) = true) →
      ∃ t, exec (.ldVxMem x) s = .next t ∧ onlyRegsAdvanced s t ∧
        ∀ y, t.getV y = if y ≤ x then Memory.read s.mem (indexAddr s + y.toNat) else s.getV y) ∧
    ∀ k ≤ x.toNat, (∀ j < k, s.canRead (indexAddr s + j) = true) → s.canRead (indexAddr s + k) = false →
      ∃ t, exec (.ldVxMem x) s = .next t ∧
        t = { (s.halt (.busFault .unmapped .read (indexAddr s + k) 1 s.pc)) with v := t.v } ∧
        ∀ y : Nibble, t.getV y = if y.toNat < k then Memory.read s.mem (indexAddr s + y.toNat) else s.getV y

/-- What a block store has written, a later fetch reads (R89). -/
def Obligations.StoredBytesAreFetched : Prop :=
  ∀ (s : State) (x y : Nibble), (∀ k ≤ x.toNat, s.canWrite (indexAddr s + k) = true) → y < x →
    s.canFetch (indexAddr s + y.toNat) = true →
    ∃ t, exec (.ldMemVx x) s = .next t ∧
      State.fetch { t with pc := BitVec.ofNat 16 (indexAddr s + y.toNat) } = .ok (wordOfBytes (s.getV y) (s.getV (y + 1)))

/-! ### Which element each instruction writes -/

/-- The writers of each state element: a register changes only by its listed writers or, for VF, by the two
instructions that define a flag; I, sp and the stack, DT, ST and memory only by theirs; icount and the launch parameters
by no instruction (R47, R33). -/
def Obligations.OnlyListedWritersChangeEachElement : Prop :=
  ∀ (i : Instr) (s t : State), exec i s = .next t →
    (∀ y, t.getV y ≠ s.getV y → writesReg i y = true ∨ (y = 0xF ∧ definesFlag i)) ∧
    (t.i ≠ s.i → writesIndex i) ∧
    (t.sp ≠ s.sp ∨ t.stack ≠ s.stack → i = .ret ∨ ∃ nnn, i = .call nnn) ∧
    (t.dt ≠ s.dt → ∃ x, i = .ldDTVx x) ∧ (t.st ≠ s.st → ∃ x, i = .ldSTVx x) ∧
    (t.mem ≠ s.mem → writesMemory i) ∧
    t.icount = s.icount ∧ t.map = s.map ∧ t.vInit = s.vInit ∧ t.hostPlan = s.hostPlan

/-- No instruction reads icount: with another count it does the same and leaves that count (R41). -/
def Obligations.CounterIsInvisible : Prop :=
  ∀ (i : Instr) (s t : State) (n : BitVec 64), exec i s = .next t →
    exec i { s with icount := n } = .next { t with icount := n }

/-- No instruction reads ST (R39, R252): with another ST an instruction gives the same next state with that ST, or, if
it is LD ST, Vx, which overwrites it, the very same next state. -/
def Obligations.SoundTimerIsInvisible : Prop :=
  ∀ (i : Instr) (s t : State) (b : Byte), exec i s = .next t →
    ((∀ x, i ≠ .ldSTVx x) → exec i { s with st := b } = .next { t with st := b }) ∧
    ((∃ x, i = .ldSTVx x) → exec i { s with st := b } = .next t)

/-- The stack entries at index sp and above are invisible: two states that differ only there step to two states that
differ only there (R45). -/
def Obligations.DeadStackEntriesAreInvisible : Prop :=
  ∀ s s' t : State, sameButDeadStack s s' → step s = .next t → ∃ t', step s' = .next t' ∧ sameButDeadStack t t'

/-- DT grows in a step only by the LD DT, Vx that the step executes (R39, R335). -/
def Obligations.DelayTimerGrowsOnlyByItsWrite : Prop :=
  ∀ s t : State, step s = .next t → s.dt.toNat < t.dt.toNat →
    ∃ op x, s.fetch = .ok op ∧ decode op = .ok (.ldDTVx x) ∧ t.dt = s.getV x

/-! ### Memory regions and the bus -/

/-- In a valid map the owner of an address is the one mapping that covers it, whatever the order of the list (R75). -/
def Obligations.OwnerIsTheCoveringMapping : Prop :=
  ∀ (map : List Mapping) (a : Nat) (r : Mapping), mapWf map →
    (ownerOf map a = some r ↔ r ∈ map ∧ r.base ≤ a ∧ a < r.base + r.size)

/-- The bus faults: Unmapped, then Straddle, then for a write ReadOnly, and otherwise the access completes, a read with
the big-endian value (R76, R77, R71). -/
def Obligations.BusFaultsInOrder : Prop :=
  ∀ (map : List Mapping) (m : Memory) (a w v : Nat),
    (ownerOf map a = none → busRead map m a w = .error .unmapped ∧ busWrite map m a w v = .error .unmapped) ∧
    ∀ r, ownerOf map a = some r →
      (r.base + r.size < a + w → busRead map m a w = .error .straddle ∧ busWrite map m a w v = .error .straddle) ∧
      (a + w ≤ r.base + r.size → busRead map m a w = .ok (Memory.readBE m a w) ∧
        (r.mutable = false → busWrite map m a w v = .error .readOnly) ∧
        (r.mutable = true → busWrite map m a w v = .ok (Memory.writeBE m a w v)))

/-- A value written through the bus is read back whole, at each of the widths 1, 2, 4 and 8; its most significant byte
is at the lowest address; no other byte changes (R71, R72, R82). -/
def Obligations.BusWriteIsReadBack : Prop :=
  ∀ (map : List Mapping) (m m' : Memory) (a w v : Nat), w ∈ [1, 2, 4, 8] → v < 256 ^ w →
    busWrite map m a w v = .ok m' →
    busRead map m' a w = .ok v ∧
    (∀ k < w, (Memory.read m' (a + k)).toNat = v / 256 ^ (w - 1 - k) % 256) ∧
    ∀ x, x < a ∨ a + w ≤ x → Memory.read m' x = Memory.read m x

/-- `loadData` is all or nothing, and works on a read-only region (R73). -/
def Obligations.LoadDataIsAllOrNothing : Prop :=
  ∀ (r : Mapping) (m : Memory) (buffer : List Byte),
    (r.size < buffer.length → regionLoadData r m buffer = .error .loadOversize) ∧
    (buffer.length ≤ r.size → ∃ m', regionLoadData r m buffer = .ok m' ∧
      (∀ k, (h : k < buffer.length) → Memory.read m' (r.base + k) = buffer[k]) ∧
      ∀ a, a < r.base ∨ r.base + buffer.length ≤ a → Memory.read m' a = Memory.read m a)

/-- No step changes a byte that no writable region owns (R77, R91). -/
def Obligations.ReadOnlyBytesNeverChange : Prop :=
  ∀ (s t : State) (a : Nat), step s = .next t → s.canWrite a = false → Memory.read t.mem a = Memory.read s.mem a

/-! ### Reset, construction, the host's actions -/

/-- What reset leaves, as far as the spec gives it (R46). -/
def Obligations.ResetValues : Prop :=
  State.reset.pc = 0x200 ∧ State.reset.sp = 0 ∧ State.reset.i = 0 ∧ State.reset.dt = 0 ∧ State.reset.st = 0 ∧
  State.reset.run = .running ∧ State.reset.icount = 0 ∧ State.reset.trace = []

/-- `Init` sets every register the spec names, V from V_INIT, and leaves memory and the map; it leaves Halted (R360,
R46). The stack and the draw counter are the model's business (log entries 3, 6). -/
def Obligations.InitSetsTheRegisterFile : Prop :=
  ∀ (s : State) (rest : List HostAction), s.hostPlan = .init :: rest →
    ∃ t, step s = .next t ∧ t.pc = 0x200 ∧ t.sp = 0 ∧ t.i = 0 ∧ t.dt = 0 ∧ t.st = 0 ∧ t.v = s.vInit ∧
      t.icount = 0 ∧ t.run = .running ∧ t.trace = [] ∧ t.mem = s.mem ∧ t.map = s.map ∧ t.vInit = s.vInit ∧
      t.hostPlan = rest

/-- The host's Stop, TimerDecrement and Inspect do what R328 and R335 say and nothing else. -/
def Obligations.HostActionsBetweenTicks : Prop :=
  ∀ (s : State) (rest : List HostAction),
    (s.hostPlan = .stop :: rest →
      (s.run = .running → step s = .next { s with run := .halted .externalStop, hostPlan := rest }) ∧
      (∀ r, s.run = .halted r → step s = .next { s with hostPlan := rest })) ∧
    (s.hostPlan = .timerDecrement :: rest → ∃ t, step s = .next t ∧
      t = { s with dt := t.dt, st := t.st, hostPlan := rest } ∧
      t.dt.toNat = s.dt.toNat - 1 ∧ t.st.toNat = s.st.toNat - 1) ∧
    (s.hostPlan = .inspect :: rest → step s = .next { s with hostPlan := rest })

/-- Construction: an image that fits is loaded into its region over MEM_INIT and the system is initialised, every
register at what `init()` leaves (R361, R360, R46); an image that does not fit constructs no system (R361). That the
image's region is found by its base, and that no region there constructs no system either, is the model's choice (log
entry 17), and so is that a well-formed launch may load the image into any region, writable or not (log entry 18). -/
def Obligations.ConstructionLoadsTheImage : Prop :=
  ∀ l : Launch,
    (l.wf → ∃ s, construct l = some s ∧ s.pc = 0x200 ∧ s.sp = 0 ∧ s.i = 0 ∧ s.dt = 0 ∧ s.st = 0 ∧ s.run = .running ∧
      s.icount = 0 ∧ s.trace = [] ∧ s.v = l.vInit ∧ s.vInit = l.vInit ∧ s.map = l.map ∧
      (∀ k, (h : k < l.romImage.length) → Memory.read s.mem (l.romBase + k) = l.romImage[k]) ∧
      ∀ a, a < l.romBase ∨ l.romBase + l.romImage.length ≤ a → Memory.read s.mem a = Memory.read l.memInit a) ∧
    ((∀ r ∈ l.map, r.base = l.romBase → r.size < l.romImage.length) → construct l = none)

/-! ### Invariants -/

/-- Reset meets both invariants. -/
def Obligations.ResetMeetsTheInvariants : Prop :=
  State.MemInv State.reset ∧ State.HaltInv State.reset

/-- Every step keeps the memory invariant: the canonical form, only mapped bytes listed, a valid map (R42, R75, R78). -/
def Obligations.StepKeepsTheMemory : Prop :=
  ∀ s t : State, s.MemInv → step s = .next t → t.MemInv

/-- Every step keeps the halt invariant: the trace holds one diagnostic of the reason and one stop signal exactly when
the block halted itself, so at most one stop signal stands in it, and pc is the address that halt records (R321, R322,
R323). Across a planned Init it holds because Init empties the trace (R46; DEDUCED, log entry 11): the trace, and with
it 'at most one stop signal', reaches back to the last Init only, as the order of the plan is the host's (log entry
7). -/
def Obligations.StepKeepsTheHaltReport : Prop :=
  ∀ s t : State, s.HaltInv → step s = .next t → t.HaltInv

/-- In every state of every run of every well-formed launch the invariants hold (R42, R75, R321, R322, R323) and the
image in a read-only region is still the image (R77, R361). The halt invariant holds across an Init in the run because
Init empties the trace (R46; DEDUCED, log entry 11): it speaks of the time since the last Init. A run takes the host's
actions from the plan (log entry 7). A well-formed launch may have its image in a writable region (log entry 18); for
such a launch nothing is said of the image. -/
def Obligations.ReachableStatesKeepTheImage : Prop :=
  ∀ (l : Launch) (s : State), l.wf → Reachable l s →
    s.MemInv ∧ s.HaltInv ∧
    ((∀ r ∈ l.map, r.base = l.romBase → r.mutable = false) →
      ∀ k, (h : k < l.romImage.length) → Memory.read s.mem (l.romBase + k) = l.romImage[k])

/-! ### Inspection -/

/-- A word has a mnemonic exactly when the interpreter would execute it: its text then does not begin with the digit of
a hexadecimal literal; any other word's text is `0x` and four uppercase digits (R291, R293). -/
def Obligations.MnemonicExactlyWhenExecuted : Prop :=
  ∀ op : Word, ((∃ i, decode op = .ok i) ↔ (disassemble op).toList.head? ≠ some '0') ∧
    ((∀ i, decode op ≠ .ok i) → (disassemble op).toList = ['0', 'x', hexDigit (op.toNat / 4096),
      hexDigit (op.toNat / 256), hexDigit (op.toNat / 16), hexDigit op.toNat])

/-- The text of every word the interpreter executes, by R292's templates: the mnemonic, one space, the operands
separated by a comma and one space, each field as uppercase hexadecimal digits of the word; a don't-care nibble does
not appear. The first clause says which characters the digits are. -/
def Obligations.TextsFollowTheTemplates : Prop :=
  (∀ n : Nat, "0123456789ABCDEF".toList[n % 16]? = some (hexDigit n)) ∧
  ∀ op : Word,
    let x := hexDigit (op.toNat / 256)
    let y := hexDigit (op.toNat / 16)
    let n := hexDigit op.toNat
    let text := (disassemble op).toList
    (opClass op = 0x0 → opNN op = 0xE0 → text = "CLS".toList) ∧
    (opClass op = 0x0 → opNN op = 0xEE → text = "RET".toList) ∧
    (opClass op = 0x1 → text = "JP 0x".toList ++ [x, y, n]) ∧
    (opClass op = 0x2 → text = "CALL 0x".toList ++ [x, y, n]) ∧
    (opClass op = 0x3 → text = "SE V".toList ++ [x] ++ ", 0x".toList ++ [y, n]) ∧
    (opClass op = 0x4 → text = "SNE V".toList ++ [x] ++ ", 0x".toList ++ [y, n]) ∧
    (opClass op = 0x5 → text = "SE V".toList ++ [x] ++ ", V".toList ++ [y]) ∧
    (opClass op = 0x6 → text = "LD V".toList ++ [x] ++ ", 0x".toList ++ [y, n]) ∧
    (opClass op = 0x7 → text = "ADD V".toList ++ [x] ++ ", 0x".toList ++ [y, n]) ∧
    (opClass op = 0x8 → opN op = 0x0 → text = "LD V".toList ++ [x] ++ ", V".toList ++ [y]) ∧
    (opClass op = 0x8 → opN op = 0x1 → text = "OR V".toList ++ [x] ++ ", V".toList ++ [y]) ∧
    (opClass op = 0x8 → opN op = 0x2 → text = "AND V".toList ++ [x] ++ ", V".toList ++ [y]) ∧
    (opClass op = 0x8 → opN op = 0x3 → text = "XOR V".toList ++ [x] ++ ", V".toList ++ [y]) ∧
    (opClass op = 0x8 → opN op = 0x4 → text = "ADD V".toList ++ [x] ++ ", V".toList ++ [y]) ∧
    (opClass op = 0x8 → opN op = 0x5 → text = "SUB V".toList ++ [x] ++ ", V".toList ++ [y]) ∧
    (opClass op = 0xA → text = "LD I, 0x".toList ++ [x, y, n]) ∧
    (opClass op = 0xB → text = "JP V0, 0x".toList ++ [x, y, n]) ∧
    (opClass op = 0xC → text = "RND V".toList ++ [x] ++ ", 0x".toList ++ [y, n]) ∧
    (opClass op = 0xD → text = "DRW V".toList ++ [x] ++ ", V".toList ++ [y] ++ ", 0x".toList ++ [n]) ∧
    (opClass op = 0xE → opN op = 0xE → text = "SKP V".toList ++ [x]) ∧
    (opClass op = 0xE → opN op = 0x1 → text = "SKNP V".toList ++ [x]) ∧
    (opClass op = 0xF → opNN op = 0x07 → text = "LD V".toList ++ [x] ++ ", DT".toList) ∧
    (opClass op = 0xF → opNN op = 0x15 → text = "LD DT, V".toList ++ [x]) ∧
    (opClass op = 0xF → opNN op = 0x18 → text = "LD ST, V".toList ++ [x]) ∧
    (opClass op = 0xF → opNN op = 0x1E → text = "ADD I, V".toList ++ [x]) ∧
    (opClass op = 0xF → opNN op = 0x29 → text = "LD F, V".toList ++ [x]) ∧
    (opClass op = 0xF → opNN op = 0x33 → text = "LD B, V".toList ++ [x]) ∧
    (opClass op = 0xF → opNN op = 0x55 → text = "LD [I], V".toList ++ [x]) ∧
    (opClass op = 0xF → opNN op = 0x65 → text = "LD V".toList ++ [x] ++ ", [I]".toList)

/-- The disassembly sequence: at most `count` entries, the k-th at pc + 2k with the text of the word there, and shorter
than `count` only because the next word cannot be read (R294). -/
def Obligations.ListingStopsAtUnreadableWord : Prop :=
  ∀ (s : State) (count : Nat),
    (disassembly s count).length ≤ count ∧
    (∀ k, (h : k < (disassembly s count).length) →
      s.canFetch (s.pc.toNat + 2 * k) = true ∧
      (disassembly s count)[k] = (s.pc.toNat + 2 * k, disassemble (s.wordAt (s.pc.toNat + 2 * k)))) ∧
    ((disassembly s count).length < count →
      s.canFetch (s.pc.toNat + 2 * (disassembly s count).length) = false)

/-- The register snapshot: PC, SP, I, then V0 to VF, with their widths and kinds (R296). -/
def Obligations.SnapshotListsTheRegisters : Prop :=
  ∀ s : State, (snapshot s).length = 19 ∧
    (snapshot s)[0]? = some ⟨"PC", s.pc.toNat, 4, .programCounter⟩ ∧
    (snapshot s)[1]? = some ⟨"SP", s.sp.val, 2, .stackPointer⟩ ∧
    (snapshot s)[2]? = some ⟨"I", s.i.toNat, 3, .index⟩ ∧
    ∀ x : Nibble, (snapshot s)[3 + x.toNat]? = some ⟨"V" ++ hexText 1 x.toNat, (s.getV x).toNat, 2, .general⟩
end

