-- ==== Sys2Proof/Laws/Memory.lean ====
section
/-! SUPPORT. The laws of memory bytes: a read after a write, and the canonical form kept by every operation. -/
namespace Sys2Proof.Machine

theorem Memory.read_insert (m : Memory) (a : Nat) (b : Byte) (h : ∀ c ∈ m, c.1 ≠ a) (x : Nat) :
    Memory.read (Memory.insert m a b) x = if x = a then b else Memory.read m x := by
  induction m with
  | nil => simp [Memory.insert, Memory.read]
  | cons c m ih =>
    obtain ⟨k, d⟩ := c
    have hk : k ≠ a := h (k, d) (by simp)
    have ih' := ih (fun c hc => h c (by simp [hc]))
    simp only [Memory.insert]
    split
    · simp [Memory.read]
    · simp only [Memory.read, ih']
      by_cases hx : x = k
      · subst hx; simp [hk]
      · simp [hx]

theorem Memory.read_erase (m : Memory) (a x : Nat) :
    Memory.read (Memory.erase m a) x = if x = a then Memory.unlisted else Memory.read m x := by
  induction m with
  | nil => simp [Memory.erase, Memory.read]
  | cons c m ih =>
    obtain ⟨k, d⟩ := c
    simp only [Memory.erase] at ih
    by_cases hk : k = a
    · subst hk
      by_cases hx : x = k
      · subst hx; simpa [Memory.erase] using ih
      · simp [Memory.erase, Memory.read, ih, hx]
    · by_cases hx : x = k
      · subst hx; simp [Memory.erase, Memory.read, hk]
      · simp [Memory.erase, Memory.read, hk, hx, ih]

theorem Memory.erase_ne (m : Memory) (a : Nat) : ∀ c ∈ Memory.erase m a, c.1 ≠ a := by
  intro c hc
  simpa using (List.mem_filter.1 hc).2

/-- A byte written is the byte read there, and every other byte reads as before (20_memory R71, R72, R87). -/
theorem Memory.read_write (m : Memory) (a : Nat) (b : Byte) (x : Nat) :
    Memory.read (Memory.write m a b) x = if x = a then b else Memory.read m x := by
  unfold Memory.write
  split
  · rename_i h; subst h; exact Memory.read_erase m a x
  · rw [Memory.read_insert _ _ _ (Memory.erase_ne m a), Memory.read_erase]
    split <;> rfl

theorem Memory.mem_insert (m : Memory) (a : Nat) (b : Byte) (c : Host.Cell) :
    c ∈ Memory.insert m a b ↔ c = (a, b) ∨ c ∈ m := by
  induction m with
  | nil => simp [Memory.insert]
  | cons d m ih =>
    obtain ⟨k, e⟩ := d
    simp only [Memory.insert]
    split
    · simp
    · simp only [List.mem_cons, ih]; tauto

theorem Memory.wf_erase (m : Memory) (a : Nat) (h : Memory.wf m) : Memory.wf (Memory.erase m a) :=
  ⟨h.1.filter _, fun c hc => h.2 c (List.mem_filter.1 hc).1⟩

theorem Memory.wf_insert (m : Memory) (a : Nat) (b : Byte) (h : Memory.wf m) (ha : ∀ c ∈ m, c.1 ≠ a)
    (hb : b ≠ Memory.unlisted) : Memory.wf (Memory.insert m a b) := by
  refine ⟨?_, fun c hc => ?_⟩
  · obtain ⟨hp, -⟩ := h
    induction m with
    | nil => simp [Memory.insert]
    | cons d m ih =>
      obtain ⟨k, e⟩ := d
      rw [List.pairwise_cons] at hp
      have hk : k ≠ a := ha (k, e) (by simp)
      simp only [Memory.insert]
      split
      · rename_i hlt
        refine List.pairwise_cons.2 ⟨fun c hc => ?_, List.pairwise_cons.2 hp⟩
        rcases List.mem_cons.1 hc with rfl | hc
        · exact hlt
        · exact lt_trans hlt (hp.1 c hc)
      · refine List.pairwise_cons.2 ⟨fun c hc => ?_, ih (fun c hc => ha c (by simp [hc])) hp.2⟩
        rcases (Memory.mem_insert m a b c).1 hc with rfl | hc
        · show k < a
          omega
        · exact hp.1 c hc
  · rcases (Memory.mem_insert m a b c).1 hc with rfl | hc
    · exact hb
    · exact h.2 c hc

/-- A write keeps the canonical form. -/
theorem Memory.wf_write (m : Memory) (a : Nat) (b : Byte) (h : Memory.wf m) : Memory.wf (Memory.write m a b) := by
  unfold Memory.write
  split
  · exact Memory.wf_erase m a h
  · rename_i hb
    exact Memory.wf_insert _ a b (Memory.wf_erase m a h) (Memory.erase_ne m a) hb

/-- A write lists no address but those listed before and its own. -/
theorem Memory.mem_write (m : Memory) (a : Nat) (b : Byte) (c : Host.Cell) (h : c ∈ Memory.write m a b) :
    c ∈ m ∨ c.1 = a := by
  unfold Memory.write at h
  split at h
  · exact .inl (List.mem_filter.1 h).1
  · rcases (Memory.mem_insert _ a b c).1 h with rfl | h
    · exact .inr rfl
    · exact .inl (List.mem_filter.1 h).1

/-- A multi-byte write leaves every byte outside its range alone (R72). -/
theorem Memory.read_writeBE_outside (m : Memory) (a w v x : Nat) (h : x < a ∨ a + w ≤ x) :
    Memory.read (Memory.writeBE m a w v) x = Memory.read m x := by
  induction w generalizing v with
  | zero => rfl
  | succ w ih =>
    rw [Memory.writeBE, Memory.read_write, if_neg (by omega), ih _ (by omega)]

theorem Memory.readBE_congr (m m' : Memory) (a w : Nat)
    (h : ∀ k < w, Memory.read m' (a + k) = Memory.read m (a + k)) : Memory.readBE m' a w = Memory.readBE m a w := by
  induction w with
  | zero => rfl
  | succ w ih => simp only [Memory.readBE, ih (fun k hk => h k (by omega)), h w (by omega)]

/-- A multi-byte value is read back as it was written, as far as it fits (R71, R72, R82). -/
theorem Memory.readBE_writeBE (m : Memory) (a w v : Nat) :
    Memory.readBE (Memory.writeBE m a w v) a w = v % 256 ^ w := by
  induction w generalizing v with
  | zero => simp [Memory.readBE, Nat.mod_one]
  | succ w ih =>
    have hc : Memory.readBE (Memory.writeBE m a (w + 1) v) a w = Memory.readBE (Memory.writeBE m a w (v / 256)) a w := by
      apply Memory.readBE_congr
      intro k hk
      rw [Memory.writeBE, Memory.read_write, if_neg (by omega)]
    have hl : (Memory.read (Memory.writeBE m a (w + 1) v) (a + w)).toNat = v % 256 := by
      rw [Memory.writeBE, Memory.read_write, if_pos rfl]; simp
    rw [Memory.readBE, hc, ih, hl, pow_succ, Nat.mul_comm (256 ^ w) 256, Nat.mod_mul]
    omega

/-- A multi-byte read is less than its width allows (R71). -/
theorem Memory.readBE_lt (m : Memory) (a w : Nat) : Memory.readBE m a w < 256 ^ w := by
  induction w with
  | zero => simp [Memory.readBE]
  | succ w ih =>
    have := (Memory.read m (a + w)).isLt
    rw [Memory.readBE, pow_succ]
    omega

theorem Memory.wf_writeBE (m : Memory) (a w v : Nat) (h : Memory.wf m) : Memory.wf (Memory.writeBE m a w v) := by
  induction w generalizing v with
  | zero => exact h
  | succ w ih => exact Memory.wf_write _ _ _ (ih _)

theorem Memory.wf_writeBytes (m : Memory) (a : Nat) (bs : List Byte) (h : Memory.wf m) :
    Memory.wf (Memory.writeBytes m a bs) := by
  induction bs generalizing m a with
  | nil => exact h
  | cons b bs ih => exact ih _ _ (Memory.wf_write _ _ _ h)

/-- What a byte list written at consecutive addresses reads as: the list inside, the old bytes outside (R73). -/
theorem Memory.read_writeBytes (m : Memory) (a : Nat) (bs : List Byte) (x : Nat) :
    Memory.read (Memory.writeBytes m a bs) x =
      if h : a ≤ x ∧ x < a + bs.length then bs[x - a]'(by omega) else Memory.read m x := by
  induction bs generalizing m a with
  | nil => rw [dif_neg (by simp)]; rfl
  | cons b bs ih =>
    rw [Memory.writeBytes, ih]
    by_cases hx : x = a
    · subst hx
      rw [dif_neg (by omega), dif_pos (by simp), Memory.read_write, if_pos rfl]
      simp
    · by_cases hin : a + 1 ≤ x ∧ x < a + 1 + bs.length
      · rw [dif_pos hin, dif_pos (by simp only [List.length_cons]; omega)]
        have e : x - a = (x - (a + 1)) + 1 := by omega
        simp only [e, List.getElem_cons_succ]
      · rw [dif_neg hin, dif_neg (by simp only [List.length_cons]; omega), Memory.read_write, if_neg hx]

end Sys2Proof.Machine
end

