-- ==== Sys2Proof/Laws/State.lean ====
section
/-! SUPPORT. One lemma per field per update of State, each true by rfl, and the register-file laws. -/
namespace Sys2Proof.Machine

variable (s : State)

@[simp] theorem State.setV_v (x : Nibble) (b : Byte) : (s.setV x b).v = s.v.set x.toNat b x.isLt := rfl
@[simp] theorem State.setV_pc (x : Nibble) (b : Byte) : (s.setV x b).pc = s.pc := rfl
@[simp] theorem State.setV_i (x : Nibble) (b : Byte) : (s.setV x b).i = s.i := rfl
@[simp] theorem State.setV_sp (x : Nibble) (b : Byte) : (s.setV x b).sp = s.sp := rfl
@[simp] theorem State.setV_stack (x : Nibble) (b : Byte) : (s.setV x b).stack = s.stack := rfl
@[simp] theorem State.setV_dt (x : Nibble) (b : Byte) : (s.setV x b).dt = s.dt := rfl
@[simp] theorem State.setV_st (x : Nibble) (b : Byte) : (s.setV x b).st = s.st := rfl
@[simp] theorem State.setV_run (x : Nibble) (b : Byte) : (s.setV x b).run = s.run := rfl
@[simp] theorem State.setV_icount (x : Nibble) (b : Byte) : (s.setV x b).icount = s.icount := rfl
@[simp] theorem State.setV_mem (x : Nibble) (b : Byte) : (s.setV x b).mem = s.mem := rfl
@[simp] theorem State.setV_trace (x : Nibble) (b : Byte) : (s.setV x b).trace = s.trace := rfl
@[simp] theorem State.setV_map (x : Nibble) (b : Byte) : (s.setV x b).map = s.map := rfl
@[simp] theorem State.setV_vInit (x : Nibble) (b : Byte) : (s.setV x b).vInit = s.vInit := rfl
@[simp] theorem State.setV_draws (x : Nibble) (b : Byte) : (s.setV x b).draws = s.draws := rfl
@[simp] theorem State.setV_hostPlan (x : Nibble) (b : Byte) : (s.setV x b).hostPlan = s.hostPlan := rfl

@[simp] theorem State.setI_v (a : Addr) : (s.setI a).v = s.v := rfl
@[simp] theorem State.setI_pc (a : Addr) : (s.setI a).pc = s.pc := rfl
@[simp] theorem State.setI_i (a : Addr) : (s.setI a).i = a := rfl
@[simp] theorem State.setI_sp (a : Addr) : (s.setI a).sp = s.sp := rfl
@[simp] theorem State.setI_stack (a : Addr) : (s.setI a).stack = s.stack := rfl
@[simp] theorem State.setI_dt (a : Addr) : (s.setI a).dt = s.dt := rfl
@[simp] theorem State.setI_st (a : Addr) : (s.setI a).st = s.st := rfl
@[simp] theorem State.setI_run (a : Addr) : (s.setI a).run = s.run := rfl
@[simp] theorem State.setI_icount (a : Addr) : (s.setI a).icount = s.icount := rfl
@[simp] theorem State.setI_mem (a : Addr) : (s.setI a).mem = s.mem := rfl
@[simp] theorem State.setI_trace (a : Addr) : (s.setI a).trace = s.trace := rfl
@[simp] theorem State.setI_map (a : Addr) : (s.setI a).map = s.map := rfl
@[simp] theorem State.setI_vInit (a : Addr) : (s.setI a).vInit = s.vInit := rfl
@[simp] theorem State.setI_draws (a : Addr) : (s.setI a).draws = s.draws := rfl
@[simp] theorem State.setI_hostPlan (a : Addr) : (s.setI a).hostPlan = s.hostPlan := rfl

@[simp] theorem State.setDT_v (b : Byte) : (s.setDT b).v = s.v := rfl
@[simp] theorem State.setDT_pc (b : Byte) : (s.setDT b).pc = s.pc := rfl
@[simp] theorem State.setDT_i (b : Byte) : (s.setDT b).i = s.i := rfl
@[simp] theorem State.setDT_sp (b : Byte) : (s.setDT b).sp = s.sp := rfl
@[simp] theorem State.setDT_stack (b : Byte) : (s.setDT b).stack = s.stack := rfl
@[simp] theorem State.setDT_dt (b : Byte) : (s.setDT b).dt = b := rfl
@[simp] theorem State.setDT_st (b : Byte) : (s.setDT b).st = s.st := rfl
@[simp] theorem State.setDT_run (b : Byte) : (s.setDT b).run = s.run := rfl
@[simp] theorem State.setDT_icount (b : Byte) : (s.setDT b).icount = s.icount := rfl
@[simp] theorem State.setDT_mem (b : Byte) : (s.setDT b).mem = s.mem := rfl
@[simp] theorem State.setDT_trace (b : Byte) : (s.setDT b).trace = s.trace := rfl
@[simp] theorem State.setDT_map (b : Byte) : (s.setDT b).map = s.map := rfl
@[simp] theorem State.setDT_vInit (b : Byte) : (s.setDT b).vInit = s.vInit := rfl
@[simp] theorem State.setDT_draws (b : Byte) : (s.setDT b).draws = s.draws := rfl
@[simp] theorem State.setDT_hostPlan (b : Byte) : (s.setDT b).hostPlan = s.hostPlan := rfl

@[simp] theorem State.setST_v (b : Byte) : (s.setST b).v = s.v := rfl
@[simp] theorem State.setST_pc (b : Byte) : (s.setST b).pc = s.pc := rfl
@[simp] theorem State.setST_i (b : Byte) : (s.setST b).i = s.i := rfl
@[simp] theorem State.setST_sp (b : Byte) : (s.setST b).sp = s.sp := rfl
@[simp] theorem State.setST_stack (b : Byte) : (s.setST b).stack = s.stack := rfl
@[simp] theorem State.setST_dt (b : Byte) : (s.setST b).dt = s.dt := rfl
@[simp] theorem State.setST_st (b : Byte) : (s.setST b).st = b := rfl
@[simp] theorem State.setST_run (b : Byte) : (s.setST b).run = s.run := rfl
@[simp] theorem State.setST_icount (b : Byte) : (s.setST b).icount = s.icount := rfl
@[simp] theorem State.setST_mem (b : Byte) : (s.setST b).mem = s.mem := rfl
@[simp] theorem State.setST_trace (b : Byte) : (s.setST b).trace = s.trace := rfl
@[simp] theorem State.setST_map (b : Byte) : (s.setST b).map = s.map := rfl
@[simp] theorem State.setST_vInit (b : Byte) : (s.setST b).vInit = s.vInit := rfl
@[simp] theorem State.setST_draws (b : Byte) : (s.setST b).draws = s.draws := rfl
@[simp] theorem State.setST_hostPlan (b : Byte) : (s.setST b).hostPlan = s.hostPlan := rfl

@[simp] theorem State.setPc_v (a : Word) : (s.setPc a).v = s.v := rfl
@[simp] theorem State.setPc_pc (a : Word) : (s.setPc a).pc = a := rfl
@[simp] theorem State.setPc_i (a : Word) : (s.setPc a).i = s.i := rfl
@[simp] theorem State.setPc_sp (a : Word) : (s.setPc a).sp = s.sp := rfl
@[simp] theorem State.setPc_stack (a : Word) : (s.setPc a).stack = s.stack := rfl
@[simp] theorem State.setPc_dt (a : Word) : (s.setPc a).dt = s.dt := rfl
@[simp] theorem State.setPc_st (a : Word) : (s.setPc a).st = s.st := rfl
@[simp] theorem State.setPc_run (a : Word) : (s.setPc a).run = s.run := rfl
@[simp] theorem State.setPc_icount (a : Word) : (s.setPc a).icount = s.icount := rfl
@[simp] theorem State.setPc_mem (a : Word) : (s.setPc a).mem = s.mem := rfl
@[simp] theorem State.setPc_trace (a : Word) : (s.setPc a).trace = s.trace := rfl
@[simp] theorem State.setPc_map (a : Word) : (s.setPc a).map = s.map := rfl
@[simp] theorem State.setPc_vInit (a : Word) : (s.setPc a).vInit = s.vInit := rfl
@[simp] theorem State.setPc_draws (a : Word) : (s.setPc a).draws = s.draws := rfl
@[simp] theorem State.setPc_hostPlan (a : Word) : (s.setPc a).hostPlan = s.hostPlan := rfl

@[simp] theorem State.setMem_v (m : Memory) : (s.setMem m).v = s.v := rfl
@[simp] theorem State.setMem_pc (m : Memory) : (s.setMem m).pc = s.pc := rfl
@[simp] theorem State.setMem_i (m : Memory) : (s.setMem m).i = s.i := rfl
@[simp] theorem State.setMem_sp (m : Memory) : (s.setMem m).sp = s.sp := rfl
@[simp] theorem State.setMem_stack (m : Memory) : (s.setMem m).stack = s.stack := rfl
@[simp] theorem State.setMem_dt (m : Memory) : (s.setMem m).dt = s.dt := rfl
@[simp] theorem State.setMem_st (m : Memory) : (s.setMem m).st = s.st := rfl
@[simp] theorem State.setMem_run (m : Memory) : (s.setMem m).run = s.run := rfl
@[simp] theorem State.setMem_icount (m : Memory) : (s.setMem m).icount = s.icount := rfl
@[simp] theorem State.setMem_mem (m : Memory) : (s.setMem m).mem = m := rfl
@[simp] theorem State.setMem_trace (m : Memory) : (s.setMem m).trace = s.trace := rfl
@[simp] theorem State.setMem_map (m : Memory) : (s.setMem m).map = s.map := rfl
@[simp] theorem State.setMem_vInit (m : Memory) : (s.setMem m).vInit = s.vInit := rfl
@[simp] theorem State.setMem_draws (m : Memory) : (s.setMem m).draws = s.draws := rfl
@[simp] theorem State.setMem_hostPlan (m : Memory) : (s.setMem m).hostPlan = s.hostPlan := rfl

@[simp] theorem State.next_v : (s.next).v = s.v := rfl
@[simp] theorem State.next_pc : (s.next).pc = s.pc + 2 := rfl
@[simp] theorem State.next_i : (s.next).i = s.i := rfl
@[simp] theorem State.next_sp : (s.next).sp = s.sp := rfl
@[simp] theorem State.next_stack : (s.next).stack = s.stack := rfl
@[simp] theorem State.next_dt : (s.next).dt = s.dt := rfl
@[simp] theorem State.next_st : (s.next).st = s.st := rfl
@[simp] theorem State.next_run : (s.next).run = s.run := rfl
@[simp] theorem State.next_icount : (s.next).icount = s.icount := rfl
@[simp] theorem State.next_mem : (s.next).mem = s.mem := rfl
@[simp] theorem State.next_trace : (s.next).trace = s.trace := rfl
@[simp] theorem State.next_map : (s.next).map = s.map := rfl
@[simp] theorem State.next_vInit : (s.next).vInit = s.vInit := rfl
@[simp] theorem State.next_draws : (s.next).draws = s.draws := rfl
@[simp] theorem State.next_hostPlan : (s.next).hostPlan = s.hostPlan := rfl

@[simp] theorem State.skip_v : (s.skip).v = s.v := rfl
@[simp] theorem State.skip_pc : (s.skip).pc = s.pc + 4 := rfl
@[simp] theorem State.skip_i : (s.skip).i = s.i := rfl
@[simp] theorem State.skip_sp : (s.skip).sp = s.sp := rfl
@[simp] theorem State.skip_stack : (s.skip).stack = s.stack := rfl
@[simp] theorem State.skip_dt : (s.skip).dt = s.dt := rfl
@[simp] theorem State.skip_st : (s.skip).st = s.st := rfl
@[simp] theorem State.skip_run : (s.skip).run = s.run := rfl
@[simp] theorem State.skip_icount : (s.skip).icount = s.icount := rfl
@[simp] theorem State.skip_mem : (s.skip).mem = s.mem := rfl
@[simp] theorem State.skip_trace : (s.skip).trace = s.trace := rfl
@[simp] theorem State.skip_map : (s.skip).map = s.map := rfl
@[simp] theorem State.skip_vInit : (s.skip).vInit = s.vInit := rfl
@[simp] theorem State.skip_draws : (s.skip).draws = s.draws := rfl
@[simp] theorem State.skip_hostPlan : (s.skip).hostPlan = s.hostPlan := rfl

@[simp] theorem State.skipIf_v (c : Bool) : (s.skipIf c).v = s.v := rfl
@[simp] theorem State.skipIf_pc (c : Bool) : (s.skipIf c).pc = s.pc + if c then 4 else 2 := rfl
@[simp] theorem State.skipIf_i (c : Bool) : (s.skipIf c).i = s.i := rfl
@[simp] theorem State.skipIf_sp (c : Bool) : (s.skipIf c).sp = s.sp := rfl
@[simp] theorem State.skipIf_stack (c : Bool) : (s.skipIf c).stack = s.stack := rfl
@[simp] theorem State.skipIf_dt (c : Bool) : (s.skipIf c).dt = s.dt := rfl
@[simp] theorem State.skipIf_st (c : Bool) : (s.skipIf c).st = s.st := rfl
@[simp] theorem State.skipIf_run (c : Bool) : (s.skipIf c).run = s.run := rfl
@[simp] theorem State.skipIf_icount (c : Bool) : (s.skipIf c).icount = s.icount := rfl
@[simp] theorem State.skipIf_mem (c : Bool) : (s.skipIf c).mem = s.mem := rfl
@[simp] theorem State.skipIf_trace (c : Bool) : (s.skipIf c).trace = s.trace := rfl
@[simp] theorem State.skipIf_map (c : Bool) : (s.skipIf c).map = s.map := rfl
@[simp] theorem State.skipIf_vInit (c : Bool) : (s.skipIf c).vInit = s.vInit := rfl
@[simp] theorem State.skipIf_draws (c : Bool) : (s.skipIf c).draws = s.draws := rfl
@[simp] theorem State.skipIf_hostPlan (c : Bool) : (s.skipIf c).hostPlan = s.hostPlan := rfl

@[simp] theorem State.emit_v (e : Event) : (s.emit e).v = s.v := rfl
@[simp] theorem State.emit_pc (e : Event) : (s.emit e).pc = s.pc := rfl
@[simp] theorem State.emit_i (e : Event) : (s.emit e).i = s.i := rfl
@[simp] theorem State.emit_sp (e : Event) : (s.emit e).sp = s.sp := rfl
@[simp] theorem State.emit_stack (e : Event) : (s.emit e).stack = s.stack := rfl
@[simp] theorem State.emit_dt (e : Event) : (s.emit e).dt = s.dt := rfl
@[simp] theorem State.emit_st (e : Event) : (s.emit e).st = s.st := rfl
@[simp] theorem State.emit_run (e : Event) : (s.emit e).run = s.run := rfl
@[simp] theorem State.emit_icount (e : Event) : (s.emit e).icount = s.icount := rfl
@[simp] theorem State.emit_mem (e : Event) : (s.emit e).mem = s.mem := rfl
@[simp] theorem State.emit_trace (e : Event) : (s.emit e).trace = s.trace ++ [e] := rfl
@[simp] theorem State.emit_map (e : Event) : (s.emit e).map = s.map := rfl
@[simp] theorem State.emit_vInit (e : Event) : (s.emit e).vInit = s.vInit := rfl
@[simp] theorem State.emit_draws (e : Event) : (s.emit e).draws = s.draws := rfl
@[simp] theorem State.emit_hostPlan (e : Event) : (s.emit e).hostPlan = s.hostPlan := rfl

@[simp] theorem State.drawn_v : (s.drawn).v = s.v := rfl
@[simp] theorem State.drawn_pc : (s.drawn).pc = s.pc := rfl
@[simp] theorem State.drawn_i : (s.drawn).i = s.i := rfl
@[simp] theorem State.drawn_sp : (s.drawn).sp = s.sp := rfl
@[simp] theorem State.drawn_stack : (s.drawn).stack = s.stack := rfl
@[simp] theorem State.drawn_dt : (s.drawn).dt = s.dt := rfl
@[simp] theorem State.drawn_st : (s.drawn).st = s.st := rfl
@[simp] theorem State.drawn_run : (s.drawn).run = s.run := rfl
@[simp] theorem State.drawn_icount : (s.drawn).icount = s.icount := rfl
@[simp] theorem State.drawn_mem : (s.drawn).mem = s.mem := rfl
@[simp] theorem State.drawn_trace : (s.drawn).trace = s.trace := rfl
@[simp] theorem State.drawn_map : (s.drawn).map = s.map := rfl
@[simp] theorem State.drawn_vInit : (s.drawn).vInit = s.vInit := rfl
@[simp] theorem State.drawn_draws : (s.drawn).draws = s.draws + 1 := rfl
@[simp] theorem State.drawn_hostPlan : (s.drawn).hostPlan = s.hostPlan := rfl

@[simp] theorem State.queryKey_v (n : String) : (s.queryKey n).v = s.v := rfl
@[simp] theorem State.queryKey_pc (n : String) : (s.queryKey n).pc = s.pc := rfl
@[simp] theorem State.queryKey_i (n : String) : (s.queryKey n).i = s.i := rfl
@[simp] theorem State.queryKey_sp (n : String) : (s.queryKey n).sp = s.sp := rfl
@[simp] theorem State.queryKey_stack (n : String) : (s.queryKey n).stack = s.stack := rfl
@[simp] theorem State.queryKey_dt (n : String) : (s.queryKey n).dt = s.dt := rfl
@[simp] theorem State.queryKey_st (n : String) : (s.queryKey n).st = s.st := rfl
@[simp] theorem State.queryKey_run (n : String) : (s.queryKey n).run = s.run := rfl
@[simp] theorem State.queryKey_icount (n : String) : (s.queryKey n).icount = s.icount := rfl
@[simp] theorem State.queryKey_mem (n : String) : (s.queryKey n).mem = s.mem := rfl
@[simp] theorem State.queryKey_trace (n : String) : (s.queryKey n).trace = s.trace ++ [.keyQuery n s.keyAnswer] := rfl
@[simp] theorem State.queryKey_map (n : String) : (s.queryKey n).map = s.map := rfl
@[simp] theorem State.queryKey_vInit (n : String) : (s.queryKey n).vInit = s.vInit := rfl
@[simp] theorem State.queryKey_draws (n : String) : (s.queryKey n).draws = s.draws + 1 := rfl
@[simp] theorem State.queryKey_hostPlan (n : String) : (s.queryKey n).hostPlan = s.hostPlan := rfl

@[simp] theorem State.halt_v (r : HaltReason) : (s.halt r).v = s.v := rfl
@[simp] theorem State.halt_pc (r : HaltReason) : (s.halt r).pc = s.pc := rfl
@[simp] theorem State.halt_i (r : HaltReason) : (s.halt r).i = s.i := rfl
@[simp] theorem State.halt_sp (r : HaltReason) : (s.halt r).sp = s.sp := rfl
@[simp] theorem State.halt_stack (r : HaltReason) : (s.halt r).stack = s.stack := rfl
@[simp] theorem State.halt_dt (r : HaltReason) : (s.halt r).dt = s.dt := rfl
@[simp] theorem State.halt_st (r : HaltReason) : (s.halt r).st = s.st := rfl
@[simp] theorem State.halt_run (r : HaltReason) : (s.halt r).run = .halted r := rfl
@[simp] theorem State.halt_icount (r : HaltReason) : (s.halt r).icount = s.icount := rfl
@[simp] theorem State.halt_mem (r : HaltReason) : (s.halt r).mem = s.mem := rfl
@[simp] theorem State.halt_trace (r : HaltReason) : (s.halt r).trace = s.trace ++ [.diagnostic r, .stopSignal] := rfl
@[simp] theorem State.halt_map (r : HaltReason) : (s.halt r).map = s.map := rfl
@[simp] theorem State.halt_vInit (r : HaltReason) : (s.halt r).vInit = s.vInit := rfl
@[simp] theorem State.halt_draws (r : HaltReason) : (s.halt r).draws = s.draws := rfl
@[simp] theorem State.halt_hostPlan (r : HaltReason) : (s.halt r).hostPlan = s.hostPlan := rfl

/-! Host actions and the counter. -/

theorem State.retire_running (h : s.run = .running) : s.retire = { s with icount := s.icount + 1 } := by
  simp [State.retire, h]

theorem State.retire_halted (r : HaltReason) (h : s.run = .halted r) : s.retire = s := by
  simp [State.retire, h]

@[simp] theorem State.retire_v : s.retire.v = s.v := by unfold State.retire; split <;> rfl
@[simp] theorem State.retire_pc : s.retire.pc = s.pc := by unfold State.retire; split <;> rfl
@[simp] theorem State.retire_i : s.retire.i = s.i := by unfold State.retire; split <;> rfl
@[simp] theorem State.retire_sp : s.retire.sp = s.sp := by unfold State.retire; split <;> rfl
@[simp] theorem State.retire_stack : s.retire.stack = s.stack := by unfold State.retire; split <;> rfl
@[simp] theorem State.retire_dt : s.retire.dt = s.dt := by unfold State.retire; split <;> rfl
@[simp] theorem State.retire_st : s.retire.st = s.st := by unfold State.retire; split <;> rfl
@[simp] theorem State.retire_run : s.retire.run = s.run := by unfold State.retire; split <;> rfl
@[simp] theorem State.retire_mem : s.retire.mem = s.mem := by unfold State.retire; split <;> rfl
@[simp] theorem State.retire_trace : s.retire.trace = s.trace := by unfold State.retire; split <;> rfl
@[simp] theorem State.retire_map : s.retire.map = s.map := by unfold State.retire; split <;> rfl
@[simp] theorem State.retire_vInit : s.retire.vInit = s.vInit := by unfold State.retire; split <;> rfl
@[simp] theorem State.retire_draws : s.retire.draws = s.draws := by unfold State.retire; split <;> rfl
@[simp] theorem State.retire_hostPlan : s.retire.hostPlan = s.hostPlan := by unfold State.retire; split <;> rfl

@[simp] theorem State.stop_v : s.stop.v = s.v := by unfold State.stop; split <;> rfl
@[simp] theorem State.stop_pc : s.stop.pc = s.pc := by unfold State.stop; split <;> rfl
@[simp] theorem State.stop_i : s.stop.i = s.i := by unfold State.stop; split <;> rfl
@[simp] theorem State.stop_sp : s.stop.sp = s.sp := by unfold State.stop; split <;> rfl
@[simp] theorem State.stop_stack : s.stop.stack = s.stack := by unfold State.stop; split <;> rfl
@[simp] theorem State.stop_dt : s.stop.dt = s.dt := by unfold State.stop; split <;> rfl
@[simp] theorem State.stop_st : s.stop.st = s.st := by unfold State.stop; split <;> rfl
@[simp] theorem State.stop_icount : s.stop.icount = s.icount := by unfold State.stop; split <;> rfl
@[simp] theorem State.stop_mem : s.stop.mem = s.mem := by unfold State.stop; split <;> rfl
@[simp] theorem State.stop_trace : s.stop.trace = s.trace := by unfold State.stop; split <;> rfl
@[simp] theorem State.stop_map : s.stop.map = s.map := by unfold State.stop; split <;> rfl
@[simp] theorem State.stop_vInit : s.stop.vInit = s.vInit := by unfold State.stop; split <;> rfl
@[simp] theorem State.stop_draws : s.stop.draws = s.draws := by unfold State.stop; split <;> rfl
@[simp] theorem State.stop_hostPlan : s.stop.hostPlan = s.hostPlan := by unfold State.stop; split <;> rfl

@[simp] theorem State.timerDecrement_v : s.timerDecrement.v = s.v := rfl
@[simp] theorem State.timerDecrement_pc : s.timerDecrement.pc = s.pc := rfl
@[simp] theorem State.timerDecrement_i : s.timerDecrement.i = s.i := rfl
@[simp] theorem State.timerDecrement_sp : s.timerDecrement.sp = s.sp := rfl
@[simp] theorem State.timerDecrement_stack : s.timerDecrement.stack = s.stack := rfl
@[simp] theorem State.timerDecrement_dt : s.timerDecrement.dt = countDown s.dt := rfl
@[simp] theorem State.timerDecrement_st : s.timerDecrement.st = countDown s.st := rfl
@[simp] theorem State.timerDecrement_run : s.timerDecrement.run = s.run := rfl
@[simp] theorem State.timerDecrement_icount : s.timerDecrement.icount = s.icount := rfl
@[simp] theorem State.timerDecrement_mem : s.timerDecrement.mem = s.mem := rfl
@[simp] theorem State.timerDecrement_trace : s.timerDecrement.trace = s.trace := rfl
@[simp] theorem State.timerDecrement_map : s.timerDecrement.map = s.map := rfl
@[simp] theorem State.timerDecrement_vInit : s.timerDecrement.vInit = s.vInit := rfl
@[simp] theorem State.timerDecrement_draws : s.timerDecrement.draws = s.draws := rfl
@[simp] theorem State.timerDecrement_hostPlan : s.timerDecrement.hostPlan = s.hostPlan := rfl

@[simp] theorem State.init_v : s.init.v = s.vInit := rfl
@[simp] theorem State.init_pc : s.init.pc = Config.programLoadAddress := rfl
@[simp] theorem State.init_i : s.init.i = 0 := rfl
@[simp] theorem State.init_sp : s.init.sp = 0 := rfl
@[simp] theorem State.init_stack : s.init.stack = Config.stackAfterInit s.draws := rfl
@[simp] theorem State.init_dt : s.init.dt = 0 := rfl
@[simp] theorem State.init_st : s.init.st = 0 := rfl
@[simp] theorem State.init_run : s.init.run = .running := rfl
@[simp] theorem State.init_icount : s.init.icount = 0 := rfl
@[simp] theorem State.init_mem : s.init.mem = s.mem := rfl
@[simp] theorem State.init_trace : s.init.trace = [] := rfl
@[simp] theorem State.init_map : s.init.map = s.map := rfl
@[simp] theorem State.init_vInit : s.init.vInit = s.vInit := rfl
@[simp] theorem State.init_draws : s.init.draws = s.draws + 1 := rfl
@[simp] theorem State.init_hostPlan : s.init.hostPlan = s.hostPlan := rfl

/-! ### The register file -/

@[simp] theorem State.getV_setV_same (x : Nibble) (b : Byte) : (s.setV x b).getV x = b := by
  simp [State.getV]

theorem State.getV_setV (x y : Nibble) (b : Byte) :
    (s.setV x b).getV y = if y = x then b else s.getV y := by
  by_cases h : y = x
  · subst h; simp
  · have hne : x.toNat ≠ y.toNat := fun e => h (BitVec.eq_of_toNat_eq e.symm)
    simp [State.getV, h, Vector.getElem_set_ne, hne]

@[simp] theorem State.getV_setV_ne (x y : Nibble) (b : Byte) (h : y ≠ x) : (s.setV x b).getV y = s.getV y := by
  simp [State.getV_setV, h]

/-- A register read depends on the register file alone. -/
theorem State.getV_congr (t : State) (x : Nibble) (h : t.v = s.v) : t.getV x = s.getV x := by
  simp only [State.getV, h]

/-- A result written with its flag (R200): VF holds the flag, every other register but X is unchanged. -/
theorem State.getV_setWithFlag (x y : Nibble) (b : Byte) (c : Bool) :
    (s.setWithFlag x b c).getV y = if y = flagReg then flagByte c else if y = x then b else s.getV y := by
  simp only [State.setWithFlag, State.getV_setV]

@[simp] theorem State.setWithFlag_pc (x : Nibble) (b : Byte) (c : Bool) : (s.setWithFlag x b c).pc = s.pc := rfl
@[simp] theorem State.setWithFlag_i (x : Nibble) (b : Byte) (c : Bool) : (s.setWithFlag x b c).i = s.i := rfl
@[simp] theorem State.setWithFlag_sp (x : Nibble) (b : Byte) (c : Bool) : (s.setWithFlag x b c).sp = s.sp := rfl
@[simp] theorem State.setWithFlag_stack (x : Nibble) (b : Byte) (c : Bool) : (s.setWithFlag x b c).stack = s.stack := rfl
@[simp] theorem State.setWithFlag_dt (x : Nibble) (b : Byte) (c : Bool) : (s.setWithFlag x b c).dt = s.dt := rfl
@[simp] theorem State.setWithFlag_st (x : Nibble) (b : Byte) (c : Bool) : (s.setWithFlag x b c).st = s.st := rfl
@[simp] theorem State.setWithFlag_run (x : Nibble) (b : Byte) (c : Bool) : (s.setWithFlag x b c).run = s.run := rfl
@[simp] theorem State.setWithFlag_icount (x : Nibble) (b : Byte) (c : Bool) : (s.setWithFlag x b c).icount = s.icount := rfl
@[simp] theorem State.setWithFlag_mem (x : Nibble) (b : Byte) (c : Bool) : (s.setWithFlag x b c).mem = s.mem := rfl
@[simp] theorem State.setWithFlag_trace (x : Nibble) (b : Byte) (c : Bool) : (s.setWithFlag x b c).trace = s.trace := rfl
@[simp] theorem State.setWithFlag_map (x : Nibble) (b : Byte) (c : Bool) : (s.setWithFlag x b c).map = s.map := rfl
@[simp] theorem State.setWithFlag_vInit (x : Nibble) (b : Byte) (c : Bool) : (s.setWithFlag x b c).vInit = s.vInit := rfl
@[simp] theorem State.setWithFlag_draws (x : Nibble) (b : Byte) (c : Bool) : (s.setWithFlag x b c).draws = s.draws := rfl
@[simp] theorem State.setWithFlag_hostPlan (x : Nibble) (b : Byte) (c : Bool) : (s.setWithFlag x b c).hostPlan = s.hostPlan := rfl

end Sys2Proof.Machine
end

