-- ==== Sys2Proof/Laws/Bus.lean ====
section
/-! SUPPORT. One lemma per bus operation, saying once everything it can do. -/
namespace Sys2Proof.Machine

/-- The owner of an address covers it. -/
theorem ownerOf_range (map : List Mapping) (a : Nat) (r : Mapping) (h : ownerOf map a = some r) :
    r.base ≤ a ∧ a < r.base + r.size := by
  have := List.find?_some h
  simpa [owns] using this

/-- The owner of an address is a mapping of the map. -/
theorem ownerOf_mem (map : List Mapping) (a : Nat) (r : Mapping) (h : ownerOf map a = some r) : r ∈ map :=
  List.mem_of_find?_eq_some h

/-- `MemRead` in full: Unmapped, else Straddle, else the big-endian value (20_memory R76). -/
theorem busRead_eq (map : List Mapping) (m : Memory) (a w : Nat) :
    busRead map m a w =
      match ownerOf map a with
      | none => .error .unmapped
      | some r => if r.base + r.size < a + w then .error .straddle else .ok (Memory.readBE m a w) := by
  unfold busRead busResolve
  cases h : ownerOf map a with
  | none => rfl
  | some r =>
    have hr := ownerOf_range map a r h
    by_cases hs : r.base + r.size < a + w
    · simp [hs]
    · have h1 : ¬ r.size < a - r.base + w := by omega
      have h2 : r.base + (a - r.base) = a := by omega
      simp [hs, regionRead, h1, h2]

/-- `MemWrite` in full: Unmapped, else Straddle, else ReadOnly, else the bytes written (R77). -/
theorem busWrite_eq (map : List Mapping) (m : Memory) (a w v : Nat) :
    busWrite map m a w v =
      match ownerOf map a with
      | none => .error .unmapped
      | some r =>
        if r.base + r.size < a + w then .error .straddle
        else if r.mutable then .ok (Memory.writeBE m a w v) else .error .readOnly := by
  unfold busWrite busResolve
  cases h : ownerOf map a with
  | none => rfl
  | some r =>
    have hr := ownerOf_range map a r h
    by_cases hs : r.base + r.size < a + w
    · simp [hs]
    · have h1 : ¬ r.size < a - r.base + w := by omega
      have h2 : r.base + (a - r.base) = a := by omega
      by_cases hm : r.mutable <;> simp [hs, regionWrite, h1, h2, hm]

/-- The interpreter's byte store in full (R77, R78). -/
theorem State.storeByte_eq (s : State) (a : Nat) (b : Byte) :
    s.storeByte a b =
      if s.canWrite a then .ok (s.setMem (Memory.write s.mem a b))
      else .error (s.halt (.busFault (s.writeFault a) .write a 1 s.pc)) := by
  unfold State.storeByte
  rw [busWrite_eq]
  unfold State.canWrite State.writeFault State.canRead
  cases h : ownerOf s.map a with
  | none => simp
  | some r =>
    have hr := ownerOf_range s.map a r h
    have h1 : ¬ r.base + r.size < a + 1 := by omega
    by_cases hm : r.mutable <;> simp [h1, hm, Memory.writeBE]

/-- The interpreter's byte load in full (R76, R78). -/
theorem State.loadByte_eq (s : State) (x : Nibble) (a : Nat) :
    s.loadByte x a =
      if s.canRead a then .ok (s.setV x (Memory.read s.mem a))
      else .error (s.halt (.busFault .unmapped .read a 1 s.pc)) := by
  unfold State.loadByte
  rw [busRead_eq]
  unfold State.canRead
  cases h : ownerOf s.map a with
  | none => simp
  | some r =>
    have hr := ownerOf_range s.map a r h
    have h1 : ¬ r.base + r.size < a + 1 := by omega
    simp [h1, Memory.readBE]

theorem wordOfBytes_toNat (hi lo : Byte) : (wordOfBytes hi lo).toNat = hi.toNat * 256 + lo.toNat := by
  have := lo.isLt
  rw [wordOfBytes, BitVec.toNat_append, ← Nat.shiftLeft_add_eq_or_of_lt this, Nat.shiftLeft_eq]

theorem readBE_two (m : Memory) (a : Nat) :
    BitVec.ofNat 16 (Memory.readBE m a 2) = wordOfBytes (Memory.read m a) (Memory.read m (a + 1)) := by
  apply BitVec.eq_of_toNat_eq
  have h1 := (Memory.read m a).isLt
  have h2 := (Memory.read m (a + 1)).isLt
  rw [wordOfBytes_toNat, BitVec.toNat_ofNat]
  simp only [Memory.readBE, Nat.add_zero]
  omega

/-- The fetch in full (40_cycle R142). -/
theorem State.fetch_eq (s : State) :
    s.fetch =
      match ownerOf s.map s.pc.toNat with
      | none => .error .unmapped
      | some r =>
        if r.base + r.size < s.pc.toNat + 2 then .error .straddle else .ok (s.wordAt s.pc.toNat) := by
  unfold State.fetch
  rw [busRead_eq]
  cases h : ownerOf s.map s.pc.toNat with
  | none => rfl
  | some r =>
    by_cases hs : r.base + r.size < s.pc.toNat + 2
    · simp [hs]
    · simp [hs, readBE_two, State.wordAt]

/-- The bytes `f 0` … `f (n-1)` written at `a` onward. -/
def Memory.writeRun (m : Memory) (a : Nat) (f : Nat → Byte) : Nat → Memory
  | 0 => m
  | n + 1 => Memory.write (Memory.writeRun m a f n) (a + n) (f n)

theorem Memory.read_writeRun (m : Memory) (a : Nat) (f : Nat → Byte) (n x : Nat) :
    Memory.read (Memory.writeRun m a f n) x =
      if a ≤ x ∧ x < a + n then f (x - a) else Memory.read m x := by
  induction n with
  | zero => rw [if_neg (by omega)]; rfl
  | succ n ih =>
    rw [Memory.writeRun, Memory.read_write, ih]
    by_cases hx : x = a + n
    · subst hx; rw [if_pos rfl, if_pos (by omega)]; congr 1; omega
    · rw [if_neg hx]
      by_cases hin : a ≤ x ∧ x < a + n
      · rw [if_pos hin, if_pos (by omega)]
      · rw [if_neg hin, if_neg (by omega)]

/-- A block store in full (46_misc R255, R256): either every byte can be written and all are, or the first that cannot
halts it with the bytes before it written. -/
theorem State.storeRun_cases (s : State) (a : Nat) (f : Nat → Byte) (n : Nat) :
    ((∀ k < n, s.canWrite (a + k) = true) ∧
      s.storeRun a f n = .ok (s.setMem (Memory.writeRun s.mem a f n))) ∨
    ∃ j < n, (∀ k < j, s.canWrite (a + k) = true) ∧ s.canWrite (a + j) = false ∧
      s.storeRun a f n = .error ((s.setMem (Memory.writeRun s.mem a f j)).halt
        (.busFault (s.writeFault (a + j)) .write (a + j) 1 s.pc)) := by
  induction n with
  | zero => exact .inl ⟨by simp, rfl⟩
  | succ n ih =>
    rcases ih with ⟨hw, e⟩ | ⟨j, hj, hw, hf, e⟩
    · by_cases hn : s.canWrite (a + n) = true
      · refine .inl ⟨fun k hk => ?_, ?_⟩
        · rcases Nat.lt_succ_iff_lt_or_eq.1 hk with h | rfl
          · exact hw k h
          · exact hn
        · rw [State.storeRun, e]
          simp only [State.storeByte_eq]
          rw [if_pos (by exact hn)]
          rfl
      · refine .inr ⟨n, by omega, hw, by simpa using hn, ?_⟩
        rw [State.storeRun, e]
        simp only [State.storeByte_eq]
        rw [if_neg (by exact hn)]
        rfl
    · exact .inr ⟨j, by omega, hw, hf, by rw [State.storeRun, e]⟩

/-- V0 … V(n-1) loaded from `a` onward. -/
def State.loadedRun (s : State) (a : Nat) : Nat → State
  | 0 => s
  | n + 1 => (s.loadedRun a n).setV (BitVec.ofNat 4 n) (Memory.read s.mem (a + n))

/-- A block load changes the registers alone. -/
theorem State.loadedRun_eq (s : State) (a n : Nat) : s.loadedRun a n = { s with v := (s.loadedRun a n).v } := by
  induction n with
  | zero => rfl
  | succ n ih => rw [State.loadedRun, ih]; rfl

theorem State.loadedRun_getV (s : State) (a n : Nat) (hn : n ≤ 16) (x : Nibble) :
    (s.loadedRun a n).getV x = if x.toNat < n then Memory.read s.mem (a + x.toNat) else s.getV x := by
  induction n with
  | zero => simp [State.loadedRun]
  | succ n ih =>
    rw [State.loadedRun, State.getV_setV, ih (by omega)]
    have hx := x.isLt
    by_cases h : x = BitVec.ofNat 4 n
    · have e : x.toNat = n := by rw [h, BitVec.toNat_ofNat]; omega
      rw [if_pos h, if_pos (by omega), e]
    · have e : x.toNat ≠ n := by
        intro e
        apply h
        rw [← e, BitVec.ofNat_toNat]; simp
      rw [if_neg h]
      by_cases hl : x.toNat < n
      · rw [if_pos hl, if_pos (by omega)]
      · rw [if_neg hl, if_neg (by omega)]

/-- A block load in full (46_misc R257): either every byte can be read and all are, or the first that cannot halts it
with the registers before it loaded. -/
theorem State.loadRun_cases (s : State) (a n : Nat) :
    ((∀ k < n, s.canRead (a + k) = true) ∧ s.loadRun a n = .ok (s.loadedRun a n)) ∨
    ∃ j < n, (∀ k < j, s.canRead (a + k) = true) ∧ s.canRead (a + j) = false ∧
      s.loadRun a n = .error ((s.loadedRun a j).halt (.busFault .unmapped .read (a + j) 1 s.pc)) := by
  induction n with
  | zero => exact .inl ⟨by simp, rfl⟩
  | succ n ih =>
    rcases ih with ⟨hr, e⟩ | ⟨j, hj, hr, hf, e⟩
    · have hc : (s.loadedRun a n).canRead (a + n) = s.canRead (a + n) := by
        unfold State.canRead; rw [State.loadedRun_eq]
      have hm : (s.loadedRun a n).mem = s.mem := by rw [State.loadedRun_eq]
      have hp : (s.loadedRun a n).pc = s.pc := by rw [State.loadedRun_eq]
      by_cases hn : s.canRead (a + n) = true
      · refine .inl ⟨fun k hk => ?_, ?_⟩
        · rcases Nat.lt_succ_iff_lt_or_eq.1 hk with h | rfl
          · exact hr k h
          · exact hn
        · rw [State.loadRun, e]
          simp only [State.loadByte_eq, hc, hn, if_true, hm, State.loadedRun]
      · refine .inr ⟨n, by omega, hr, by simpa using hn, ?_⟩
        rw [State.loadRun, e]
        simp only [State.loadByte_eq, hc, hn, hp]
        simp
    · exact .inr ⟨j, by omega, hr, hf, by rw [State.loadRun, e]⟩

/-- A push in full (10_state R37). -/
theorem State.push_cases (s : State) (a : Word) :
    (∃ h : s.sp.val < 16, s.push a =
      .ok { s with stack := s.stack.set s.sp.val a h, sp := ⟨s.sp.val + 1, by omega⟩ }) ∨
    (s.sp.val = 16 ∧ s.push a = .error (s.halt (.stackOverflow s.pc))) := by
  unfold State.push
  by_cases h : s.sp.val < 16
  · exact .inl ⟨h, by simp [h]⟩
  · exact .inr ⟨by omega, by simp [h]⟩

/-- A pop in full (10_state R38). -/
theorem State.pop_cases (s : State) :
    (∃ h : 0 < s.sp.val, s.pop =
      .ok (s.stack[s.sp.val - 1]'(by omega), { s with sp := ⟨s.sp.val - 1, by omega⟩ })) ∨
    (s.sp.val = 0 ∧ s.pop = .error (s.halt (.stackUnderflow s.pc))) := by
  unfold State.pop
  by_cases h : 0 < s.sp.val
  · exact .inl ⟨h, by simp [h]⟩
  · exact .inr ⟨by omega, by simp [h]⟩

end Sys2Proof.Machine
end

