-- ==== Sys2Proof/Laws/Decode.lean ====
section
/-! SUPPORT. The fields of the three word shapes (30_encoding R111), by which the encoder and the decoder meet. -/
namespace Sys2Proof

theorem wordOfNibbles_toNat (c x y n : Nibble) :
    (wordOfNibbles c x y n).toNat = c.toNat * 4096 + x.toNat * 256 + y.toNat * 16 + n.toNat := by
  have h1 := x.isLt
  have h2 := y.isLt
  have h3 := n.isLt
  simp only [wordOfNibbles, BitVec.toNat_append]
  rw [← Nat.shiftLeft_add_eq_or_of_lt h3, ← Nat.shiftLeft_add_eq_or_of_lt h2, ← Nat.shiftLeft_add_eq_or_of_lt h1]
  simp only [Nat.shiftLeft_eq]
  omega

theorem wordOfXNN_toNat (c x : Nibble) (nn : Byte) :
    (wordOfXNN c x nn).toNat = c.toNat * 4096 + x.toNat * 256 + nn.toNat := by
  have h1 := x.isLt
  have h2 := nn.isLt
  simp only [wordOfXNN, BitVec.toNat_append]
  rw [← Nat.shiftLeft_add_eq_or_of_lt h2, ← Nat.shiftLeft_add_eq_or_of_lt h1]
  simp only [Nat.shiftLeft_eq]
  omega

theorem wordOfNNN_toNat (c : Nibble) (nnn : Addr) : (wordOfNNN c nnn).toNat = c.toNat * 4096 + nnn.toNat := by
  have h1 := nnn.isLt
  simp only [wordOfNNN, BitVec.toNat_append]
  rw [← Nat.shiftLeft_add_eq_or_of_lt h1, Nat.shiftLeft_eq]

theorem opClass_toNat (op : Word) : (opClass op).toNat = op.toNat / 4096 % 16 := by
  simp [opClass, BitVec.extractLsb'_toNat, Nat.shiftRight_eq_div_pow]

theorem opX_toNat (op : Word) : (opX op).toNat = op.toNat / 256 % 16 := by
  simp [opX, BitVec.extractLsb'_toNat, Nat.shiftRight_eq_div_pow]

theorem opY_toNat (op : Word) : (opY op).toNat = op.toNat / 16 % 16 := by
  simp [opY, BitVec.extractLsb'_toNat, Nat.shiftRight_eq_div_pow]

theorem opN_toNat (op : Word) : (opN op).toNat = op.toNat % 16 := by
  simp [opN, BitVec.extractLsb'_toNat]

theorem opNN_toNat (op : Word) : (opNN op).toNat = op.toNat % 256 := by
  simp [opNN, BitVec.extractLsb'_toNat]

theorem opNNN_toNat (op : Word) : (opNNN op).toNat = op.toNat % 4096 := by
  simp [opNNN, BitVec.extractLsb'_toNat]

variable (c x y n : Nibble) (nn : Byte) (nnn : Addr)

@[simp] theorem opClass_wordOfNibbles : opClass (wordOfNibbles c x y n) = c :=
  BitVec.eq_of_toNat_eq (by rw [opClass_toNat, wordOfNibbles_toNat]; have := c.isLt; have := x.isLt; have := y.isLt; have := n.isLt; omega)
@[simp] theorem opX_wordOfNibbles : opX (wordOfNibbles c x y n) = x :=
  BitVec.eq_of_toNat_eq (by rw [opX_toNat, wordOfNibbles_toNat]; have := c.isLt; have := x.isLt; have := y.isLt; have := n.isLt; omega)
@[simp] theorem opY_wordOfNibbles : opY (wordOfNibbles c x y n) = y :=
  BitVec.eq_of_toNat_eq (by rw [opY_toNat, wordOfNibbles_toNat]; have := c.isLt; have := x.isLt; have := y.isLt; have := n.isLt; omega)
@[simp] theorem opN_wordOfNibbles : opN (wordOfNibbles c x y n) = n :=
  BitVec.eq_of_toNat_eq (by rw [opN_toNat, wordOfNibbles_toNat]; have := c.isLt; have := x.isLt; have := y.isLt; have := n.isLt; omega)
@[simp] theorem opClass_wordOfXNN : opClass (wordOfXNN c x nn) = c :=
  BitVec.eq_of_toNat_eq (by rw [opClass_toNat, wordOfXNN_toNat]; have := c.isLt; have := x.isLt; have := nn.isLt; omega)
@[simp] theorem opX_wordOfXNN : opX (wordOfXNN c x nn) = x :=
  BitVec.eq_of_toNat_eq (by rw [opX_toNat, wordOfXNN_toNat]; have := c.isLt; have := x.isLt; have := nn.isLt; omega)
@[simp] theorem opNN_wordOfXNN : opNN (wordOfXNN c x nn) = nn :=
  BitVec.eq_of_toNat_eq (by rw [opNN_toNat, wordOfXNN_toNat]; have := c.isLt; have := x.isLt; have := nn.isLt; omega)
theorem opN_wordOfXNN : opN (wordOfXNN c x nn) = nn.setWidth 4 :=
  BitVec.eq_of_toNat_eq (by rw [opN_toNat, wordOfXNN_toNat, BitVec.toNat_setWidth]; have := c.isLt; have := x.isLt; have := nn.isLt; omega)
@[simp] theorem opClass_wordOfNNN : opClass (wordOfNNN c nnn) = c :=
  BitVec.eq_of_toNat_eq (by rw [opClass_toNat, wordOfNNN_toNat]; have := c.isLt; have := nnn.isLt; omega)
@[simp] theorem opNNN_wordOfNNN : opNNN (wordOfNNN c nnn) = nnn :=
  BitVec.eq_of_toNat_eq (by rw [opNNN_toNat, wordOfNNN_toNat]; have := c.isLt; have := nnn.isLt; omega)

/-- A word is its four nibbles. -/
theorem word_eq_nibbles (op : Word) : op = wordOfNibbles (opClass op) (opX op) (opY op) (opN op) :=
  BitVec.eq_of_toNat_eq (by
    rw [wordOfNibbles_toNat, opClass_toNat, opX_toNat, opY_toNat, opN_toNat]; have := op.isLt; omega)

end Sys2Proof
end

