-- ==== Sys2Proof/Laws/Exec.lean ====
section
/-! SUPPORT. What any instruction can do, said once: it answers a next state; it either completes or halts by the halt
procedure; it writes memory only as a run of writable bytes; it leaves the counter and the launch parameters alone. -/
namespace Sys2Proof.Machine

/-- A memory that differs from the state's by writes to writable bytes only. -/
def wroteOnly (s : State) (m : Memory) : Prop :=
  ∃ a f n, (∀ k < n, s.canWrite (a + k) = true) ∧ m = Memory.writeRun s.mem a f n

theorem wroteOnly_self (s : State) : wroteOnly s s.mem := ⟨0, fun _ => 0, 0, by simp, rfl⟩

/-- The instruction ran to completion: the run state is kept and at most one event, no halt report, is emitted. -/
def completed (s t : State) : Prop :=
  t.run = s.run ∧ (t.trace = s.trace ∨ ∃ e, Event.isHaltReport e = false ∧ t.trace = s.trace ++ [e])

/-- The instruction halted (60_exceptions R321, R322). -/
def haltedAt (s t : State) (r : HaltReason) : Prop :=
  t = { s with v := t.v, mem := t.mem, run := .halted r, trace := s.trace ++ [.diagnostic r, .stopSignal] } ∧
  r.recordedPc = some s.pc

/-- What an instruction leaves alone whatever it is. -/
def keepsHost (s t : State) : Prop :=
  t.map = s.map ∧ t.vInit = s.vInit ∧ t.hostPlan = s.hostPlan ∧ t.icount = s.icount

theorem storeRun_complete_cases (s : State) (a : Nat) (f : Nat → Byte) (n : Nat) :
    ∃ t, State.complete (s.storeRun a f n) = .next t ∧ wroteOnly s t.mem ∧ keepsHost s t ∧ t.dt = s.dt ∧
      (completed s t ∨ ∃ r, haltedAt s t r) := by
  rcases s.storeRun_cases a f n with ⟨hw, e⟩ | ⟨j, hj, hw, hf, e⟩
  · refine ⟨_, by rw [e]; rfl, ?_⟩
    exact ⟨⟨a, f, n, hw, rfl⟩, ⟨rfl, rfl, rfl, rfl⟩, rfl, .inl ⟨rfl, .inl rfl⟩⟩
  · refine ⟨_, by rw [e]; rfl, ?_⟩
    exact ⟨⟨a, f, j, hw, rfl⟩, ⟨rfl, rfl, rfl, rfl⟩, rfl, .inr ⟨_, rfl, rfl⟩⟩

theorem loadRun_complete_cases (s : State) (a n : Nat) :
    ∃ t, State.complete (s.loadRun a n) = .next t ∧ t.mem = s.mem ∧ keepsHost s t ∧ t.dt = s.dt ∧
      (completed s t ∨ ∃ r, haltedAt s t r) := by
  have eqn := s.loadedRun_eq a
  rcases s.loadRun_cases a n with ⟨-, e⟩ | ⟨j, -, -, -, e⟩
  · rw [eqn n] at e
    refine ⟨_, by rw [e]; rfl, ?_⟩
    exact ⟨rfl, ⟨rfl, rfl, rfl, rfl⟩, rfl, .inl ⟨rfl, .inl rfl⟩⟩
  · rw [eqn j] at e
    refine ⟨_, by rw [e]; rfl, ?_⟩
    exact ⟨rfl, ⟨rfl, rfl, rfl, rfl⟩, rfl, .inr ⟨_, rfl, rfl⟩⟩

/-- What any instruction can do. -/
theorem exec_cases (i : Instr) (s : State) :
    ∃ t, exec i s = .next t ∧ wroteOnly s t.mem ∧ keepsHost s t ∧
      (t.dt = s.dt ∨ ∃ x, i = .ldDTVx x ∧ t.dt = s.getV x) ∧ (completed s t ∨ ∃ r, haltedAt s t r) := by
  have quiet : ∀ t : State, exec i s = .next t → t.mem = s.mem → keepsHost s t → t.dt = s.dt → completed s t →
      ∃ t, exec i s = .next t ∧ wroteOnly s t.mem ∧ keepsHost s t ∧
        (t.dt = s.dt ∨ ∃ x, i = .ldDTVx x ∧ t.dt = s.getV x) ∧ (completed s t ∨ ∃ r, haltedAt s t r) :=
    fun t e hm hk hd hc => ⟨t, e, hm ▸ wroteOnly_self s, hk, .inl hd, .inl hc⟩
  cases i with
  | cls => exact quiet _ rfl rfl ⟨rfl, rfl, rfl, rfl⟩ rfl ⟨rfl, .inr ⟨.clear, rfl, rfl⟩⟩
  | drw x y n =>
    exact quiet _ rfl rfl ⟨rfl, rfl, rfl, rfl⟩ rfl ⟨rfl, .inr ⟨.draw (s.getV x) (s.getV y) n s.i, rfl, rfl⟩⟩
  | skp x =>
    exact quiet _ rfl rfl ⟨rfl, rfl, rfl, rfl⟩ rfl
      ⟨rfl, .inr ⟨.keyQuery (keyName (s.getV x)) s.keyAnswer, rfl, rfl⟩⟩
  | sknp x =>
    exact quiet _ rfl rfl ⟨rfl, rfl, rfl, rfl⟩ rfl
      ⟨rfl, .inr ⟨.keyQuery (keyName (s.getV x)) s.keyAnswer, rfl, rfl⟩⟩
  | ldDTVx x =>
    exact ⟨_, rfl, wroteOnly_self s, ⟨rfl, rfl, rfl, rfl⟩, .inr ⟨x, rfl, rfl⟩, .inl ⟨rfl, .inl rfl⟩⟩
  | ret =>
    rcases s.pop_cases with ⟨h, e⟩ | ⟨h, e⟩
    · refine ⟨_, by simp only [exec, execRet, e]; rfl, ?_⟩
      exact ⟨wroteOnly_self s, ⟨rfl, rfl, rfl, rfl⟩, .inl rfl,
        .inl ⟨rfl, .inl rfl⟩⟩
    · refine ⟨_, by simp only [exec, execRet, e]; rfl, ?_⟩
      exact ⟨wroteOnly_self s, ⟨rfl, rfl, rfl, rfl⟩, .inl rfl,
        .inr ⟨_, rfl, rfl⟩⟩
  | call nnn =>
    rcases s.push_cases s.pc with ⟨h, e⟩ | ⟨h, e⟩
    · refine ⟨_, by simp only [exec, execCall, e]; rfl, ?_⟩
      exact ⟨wroteOnly_self s, ⟨rfl, rfl, rfl, rfl⟩, .inl rfl,
        .inl ⟨rfl, .inl rfl⟩⟩
    · refine ⟨_, by simp only [exec, execCall, e]; rfl, ?_⟩
      exact ⟨wroteOnly_self s, ⟨rfl, rfl, rfl, rfl⟩, .inl rfl,
        .inr ⟨_, rfl, rfl⟩⟩
  | ldB x =>
    obtain ⟨t, e, hw, hk, hd, h⟩ := storeRun_complete_cases s (indexAddr s) (bcdDigit (s.getV x)) 3
    exact ⟨t, e, hw, hk, .inl hd, h⟩
  | ldMemVx x =>
    obtain ⟨t, e, hw, hk, hd, h⟩ := storeRun_complete_cases s (indexAddr s) (regAt s) (x.toNat + 1)
    exact ⟨t, e, hw, hk, .inl hd, h⟩
  | ldVxMem x =>
    obtain ⟨t, e, hm, hk, hd, h⟩ := loadRun_complete_cases s (indexAddr s) (x.toNat + 1)
    exact ⟨t, e, hm ▸ wroteOnly_self s, hk, .inl hd, h⟩
  | _ => exact quiet _ rfl rfl ⟨rfl, rfl, rfl, rfl⟩ rfl ⟨rfl, .inl rfl⟩

/-- Bytes that cannot be written keep their values under writes to writable bytes. -/
theorem wroteOnly_read (s : State) (m : Memory) (h : wroteOnly s m) (a : Nat) (ha : s.canWrite a = false) :
    Memory.read m a = Memory.read s.mem a := by
  obtain ⟨b, f, n, hw, rfl⟩ := h
  rw [Memory.read_writeRun, if_neg]
  intro hin
  have := hw (a - b) (by omega)
  rw [show b + (a - b) = a by omega, ha] at this
  cases this

theorem canRead_of_canWrite (s : State) (a : Nat) (h : s.canWrite a = true) : s.canRead a = true := by
  unfold State.canWrite at h
  unfold State.canRead
  cases e : ownerOf s.map a <;> simp [e] at h ⊢

/-- Writes to writable bytes keep the memory's canonical form and list only mapped bytes. -/
theorem wroteOnly_keeps (s : State) (m : Memory) (h : wroteOnly s m) (hwf : Memory.wf s.mem)
    (hc : ∀ c ∈ s.mem, s.canRead c.1 = true) : Memory.wf m ∧ ∀ c ∈ m, s.canRead c.1 = true := by
  obtain ⟨b, f, n, hw, rfl⟩ := h
  induction n with
  | zero => exact ⟨hwf, hc⟩
  | succ n ih =>
    obtain ⟨h1, h2⟩ := ih (fun k hk => hw k (by omega))
    refine ⟨Memory.wf_write _ _ _ h1, fun c hmem => ?_⟩
    rcases Memory.mem_write _ _ _ c hmem with hm | he
    · exact h2 c hm
    · rw [he]; exact canRead_of_canWrite s _ (hw n (by omega))

/-- What a tick can do: nothing when halted; else it halts at the fetch or the decode, or it executes and counts. -/
theorem tick_cases (s : State) :
    (∃ r, s.run = .halted r ∧ s.tick = .next s) ∨
    (s.run = .running ∧ ∃ r, r.recordedPc = some s.pc ∧ s.tick = .next (s.halt r)) ∨
    (s.run = .running ∧ ∃ op i t, s.fetch = .ok op ∧ decode op = .ok i ∧ exec i s = .next t ∧
      s.tick = .next t.retire) := by
  cases hr : s.run with
  | halted r => exact .inl ⟨r, rfl, by unfold State.tick; rw [hr]⟩
  | running =>
    refine .inr ?_
    cases hf : s.fetch with
    | error k =>
      exact .inl ⟨rfl, .busFault k .fetch s.pc.toNat 2 s.pc, rfl, by unfold State.tick; rw [hr]; simp only [hf]⟩
    | ok op =>
      cases hd : decode op with
      | error e =>
        exact .inl ⟨rfl, .unknownOpcode op s.pc, rfl,
          by unfold State.tick; rw [hr]; simp only [hf, State.execWord, hd]⟩
      | ok i =>
        obtain ⟨t, e, -⟩ := exec_cases i s
        exact .inr ⟨rfl, op, i, t, rfl, hd, e,
          by unfold State.tick; rw [hr]; simp only [hf, State.execWord, hd, e, retireResult]⟩

end Sys2Proof.Machine
end

