-- ==== Sys2Proof/Laws/PerInstr.lean ====
section
/-! SUPPORT. For every instruction: its encoding lies in its own row of the opcode map (30_encoding R114). -/
namespace Sys2Proof.Laws.EncodeRow

/-- The encoded word has the row's fixed bits. -/
def Statement (i : Instr) : Prop := encode i &&& (rowOf i).1 = (rowOf i).2

theorem and_class (nnn : Addr) (c : Nibble) : wordOfNNN c nnn &&& 0xF000 = wordOfNNN c 0 := by
  apply BitVec.eq_of_getLsbD_eq
  intro k hk
  simp only [wordOfNNN, BitVec.getLsbD_and, BitVec.getLsbD_append]
  interval_cases k <;> simp

theorem and_class_xnn (c x : Nibble) (nn : Byte) : wordOfXNN c x nn &&& 0xF000 = wordOfNNN c 0 := by
  apply BitVec.eq_of_getLsbD_eq
  intro k hk
  simp only [wordOfXNN, wordOfNNN, BitVec.getLsbD_and, BitVec.getLsbD_append]
  interval_cases k <;> simp

theorem and_low_byte (c x : Nibble) (nn : Byte) : wordOfXNN c x nn &&& 0xF0FF = wordOfXNN c 0 nn := by
  apply BitVec.eq_of_getLsbD_eq
  intro k hk
  simp only [wordOfXNN, BitVec.getLsbD_and, BitVec.getLsbD_append]
  interval_cases k <;> simp

theorem and_low_nibble_xnn (c x : Nibble) (nn : Byte) :
    wordOfXNN c x nn &&& 0xF00F = wordOfNibbles c 0 0 (nn.setWidth 4) := by
  apply BitVec.eq_of_getLsbD_eq
  intro k hk
  simp only [wordOfXNN, wordOfNibbles, BitVec.getLsbD_and, BitVec.getLsbD_append]
  interval_cases k <;> simp

theorem and_low_nibble (c x y n : Nibble) : wordOfNibbles c x y n &&& 0xF00F = wordOfNibbles c 0 0 n := by
  apply BitVec.eq_of_getLsbD_eq
  intro k hk
  simp only [wordOfNibbles, BitVec.getLsbD_and, BitVec.getLsbD_append]
  interval_cases k <;> simp

theorem and_class_nibbles (c x y n : Nibble) : wordOfNibbles c x y n &&& 0xF000 = wordOfNNN c 0 := by
  apply BitVec.eq_of_getLsbD_eq
  intro k hk
  simp only [wordOfNibbles, wordOfNNN, BitVec.getLsbD_and, BitVec.getLsbD_append]
  interval_cases k <;> simp

theorem cls : Statement .cls := rfl
theorem ret : Statement .ret := rfl
theorem jp (nnn : Addr) : Statement (.jp nnn) := (and_class nnn _).trans rfl
theorem call (nnn : Addr) : Statement (.call nnn) := (and_class nnn _).trans rfl
theorem seImm (x : Nibble) (nn : Byte) : Statement (.seImm x nn) := (and_class_xnn _ x nn).trans rfl
theorem sneImm (x : Nibble) (nn : Byte) : Statement (.sneImm x nn) := (and_class_xnn _ x nn).trans rfl
theorem seReg (x y : Nibble) : Statement (.seReg x y) := (and_class_nibbles _ x y _).trans rfl
theorem ldImm (x : Nibble) (nn : Byte) : Statement (.ldImm x nn) := (and_class_xnn _ x nn).trans rfl
theorem addImm (x : Nibble) (nn : Byte) : Statement (.addImm x nn) := (and_class_xnn _ x nn).trans rfl
theorem ldReg (x y : Nibble) : Statement (.ldReg x y) := (and_low_nibble _ x y _).trans rfl
theorem orReg (x y : Nibble) : Statement (.orReg x y) := (and_low_nibble _ x y _).trans rfl
theorem andReg (x y : Nibble) : Statement (.andReg x y) := (and_low_nibble _ x y _).trans rfl
theorem xorReg (x y : Nibble) : Statement (.xorReg x y) := (and_low_nibble _ x y _).trans rfl
theorem addReg (x y : Nibble) : Statement (.addReg x y) := (and_low_nibble _ x y _).trans rfl
theorem subReg (x y : Nibble) : Statement (.subReg x y) := (and_low_nibble _ x y _).trans rfl
theorem ldI (nnn : Addr) : Statement (.ldI nnn) := (and_class nnn _).trans rfl
theorem jpV0 (nnn : Addr) : Statement (.jpV0 nnn) := (and_class nnn _).trans rfl
theorem rnd (x : Nibble) (nn : Byte) : Statement (.rnd x nn) := (and_class_xnn _ x nn).trans rfl
theorem drw (x y n : Nibble) : Statement (.drw x y n) := (and_class_nibbles _ x y n).trans rfl
theorem skp (x : Nibble) : Statement (.skp x) := (and_low_nibble_xnn _ x _).trans rfl
theorem sknp (x : Nibble) : Statement (.sknp x) := (and_low_nibble_xnn _ x _).trans rfl
theorem ldVxDT (x : Nibble) : Statement (.ldVxDT x) := (and_low_byte _ x _).trans rfl
theorem ldDTVx (x : Nibble) : Statement (.ldDTVx x) := (and_low_byte _ x _).trans rfl
theorem ldSTVx (x : Nibble) : Statement (.ldSTVx x) := (and_low_byte _ x _).trans rfl
theorem addI (x : Nibble) : Statement (.addI x) := (and_low_byte _ x _).trans rfl
theorem ldF (x : Nibble) : Statement (.ldF x) := (and_low_byte _ x _).trans rfl
theorem ldB (x : Nibble) : Statement (.ldB x) := (and_low_byte _ x _).trans rfl
theorem ldMemVx (x : Nibble) : Statement (.ldMemVx x) := (and_low_byte _ x _).trans rfl
theorem ldVxMem (x : Nibble) : Statement (.ldVxMem x) := (and_low_byte _ x _).trans rfl

end Sys2Proof.Laws.EncodeRow
end

