-- ==== Sys2Proof/Tests/Slice0.lean ====
section
/-! SUPPORT. Small tests. Expected results come from the spec's worked examples and vectors (95_test_vectors S1 to S10,
T1 to T114) and 47_inspection R292; the witnesses show that each obligation's hypotheses can be met. -/
namespace Sys2Proof.Tests
open Sys2Proof.Machine

/-! ### Well-formedness: one ill-formed term for each check -/

theorem test_default_map_is_valid : mapWf (Config.defaultMap 0x100) := by decide
theorem test_map_without_high_ram_is_valid : mapWf (Config.defaultMap 0xE00) ∧ (Config.defaultMap 0xE00).length = 2 := by
  decide
theorem test_rom_capacities : romCapacityWf 1 ∧ romCapacityWf 0xE00 ∧ ¬ romCapacityWf 0 ∧ ¬ romCapacityWf 0xE01 := by decide
theorem test_empty_region_refused : ¬ mapWf [⟨0, 0, true⟩] := by decide
theorem test_region_past_the_end_refused : ¬ mapWf [⟨0xFFFF, 2, true⟩] := by decide
theorem test_overlapping_regions_refused : ¬ mapWf [⟨0, 0x201, true⟩, ⟨0x200, 0x100, false⟩] := by decide

/-- The launch premise LAUNCH0 of 95_test_vectors with a given image. -/
def launch0 (image : List Byte) : Launch :=
  { map := Config.defaultMap 0x100, romBase := 0x200, romImage := image, memInit := [], vInit := Vector.replicate 16 0 }

theorem test_launch_is_well_formed : (launch0 [0x60, 0x0A]).wf := by decide
theorem test_launch_invalid_map_refused : ¬ ({ launch0 [] with map := [⟨0x200, 0, false⟩] } : Launch).wf := by decide
theorem test_launch_image_too_long_refused : ¬ ({ launch0 [1, 2] with map := [⟨0x200, 1, false⟩] } : Launch).wf := by
  decide
theorem test_launch_no_rom_region_refused : ¬ ({ launch0 [] with romBase := 0x201 } : Launch).wf := by decide
theorem test_launch_unsorted_memory_refused :
    ¬ ({ launch0 [] with memInit := [(0x301, 1), (0x300, 1)] } : Launch).wf := by decide
theorem test_launch_zero_cell_refused : ¬ ({ launch0 [] with memInit := [(0x300, 0)] } : Launch).wf := by decide
theorem test_launch_unmapped_cell_refused : ¬ ({ launch0 [] with memInit := [(0x1000, 1)] } : Launch).wf := by decide

/-! ### Decode: a word written out from R114 for every constructor (examples of R292) -/

theorem test_decode_cls : decode 0x00E0 = .ok .cls ∧ decode 0x0AE0 = .ok .cls := by decide
theorem test_decode_ret : decode 0x00EE = .ok .ret ∧ decode 0x03EE = .ok .ret := by decide
theorem test_decode_jp : decode 0x1234 = .ok (.jp 0x234) := by decide
theorem test_decode_call : decode 0x2300 = .ok (.call 0x300) := by decide
theorem test_decode_seImm : decode 0x3A05 = .ok (.seImm 0xA 0x05) := by decide
theorem test_decode_sneImm : decode 0x4A05 = .ok (.sneImm 0xA 0x05) := by decide
theorem test_decode_seReg : decode 0x5120 = .ok (.seReg 1 2) ∧ decode 0x5127 = .ok (.seReg 1 2) := by decide
theorem test_decode_ldImm : decode 0x600A = .ok (.ldImm 0 0x0A) := by decide
theorem test_decode_addImm : decode 0x7303 = .ok (.addImm 3 0x03) := by decide
theorem test_decode_ldReg : decode 0x8120 = .ok (.ldReg 1 2) := by decide
theorem test_decode_orReg : decode 0x8121 = .ok (.orReg 1 2) := by decide
theorem test_decode_andReg : decode 0x8122 = .ok (.andReg 1 2) := by decide
theorem test_decode_xorReg : decode 0x8123 = .ok (.xorReg 1 2) := by decide
theorem test_decode_addReg : decode 0x8014 = .ok (.addReg 0 1) := by decide
theorem test_decode_subReg : decode 0x8015 = .ok (.subReg 0 1) := by decide
theorem test_decode_ldI : decode 0xA2F0 = .ok (.ldI 0x2F0) := by decide
theorem test_decode_jpV0 : decode 0xB300 = .ok (.jpV0 0x300) := by decide
theorem test_decode_rnd : decode 0xC30F = .ok (.rnd 3 0x0F) := by decide
theorem test_decode_drw : decode 0xD125 = .ok (.drw 1 2 5) := by decide
theorem test_decode_skp : decode 0xE59E = .ok (.skp 5) ∧ decode 0xE50E = .ok (.skp 5) := by decide
theorem test_decode_sknp : decode 0xE5A1 = .ok (.sknp 5) ∧ decode 0xE501 = .ok (.sknp 5) := by decide
theorem test_decode_ldVxDT : decode 0xF407 = .ok (.ldVxDT 4) := by decide
theorem test_decode_ldDTVx : decode 0xF415 = .ok (.ldDTVx 4) := by decide
theorem test_decode_ldSTVx : decode 0xF418 = .ok (.ldSTVx 4) := by decide
theorem test_decode_addI : decode 0xF11E = .ok (.addI 1) := by decide
theorem test_decode_ldF : decode 0xF229 = .ok (.ldF 2) := by decide
theorem test_decode_ldB : decode 0xF033 = .ok (.ldB 0) := by decide
theorem test_decode_ldMemVx : decode 0xF155 = .ok (.ldMemVx 1) := by decide
theorem test_decode_ldVxMem : decode 0xF265 = .ok (.ldVxMem 2) := by decide

/-- T5, T9: each unknown word is rejected by name. -/
theorem test_unknown_classes : decode 0x9120 = .error (.unknownOpcode 0x9120) ∧
    decode 0x0123 = .error (.unknownOpcode 0x0123) ∧ decode 0x8126 = .error (.unknownOpcode 0x8126) ∧
    decode 0x812E = .error (.unknownOpcode 0x812E) := by decide
theorem test_unknown_subfields : decode 0xE19F = .error (.unknownOpcode 0xE19F) ∧
    decode 0xE100 = .error (.unknownOpcode 0xE100) ∧ decode 0xF00A = .error (.unknownOpcode 0xF00A) ∧
    decode 0xFFFF = .error (.unknownOpcode 0xFFFF) := by decide
theorem test_truncated : decodeBytes [0x60] = .error .truncated := by decide
theorem test_table_word : decodeTableWord 16 0x600A = some (.ldImm 0 0x0A) := by decide

/-! ### One instruction -/

/-- The state of a next outcome. -/
def nextOf : Result → Option State
  | .next t => some t
  | .fault _ => none
  | .refused _ => none

/-- The reset state with registers X and Y set. -/
def regs (x : Nibble) (a : Byte) (y : Nibble) (b : Byte) : State := (State.reset.setV x a).setV y b

/-- What a next state reads, of one thing. -/
def see {α : Type} (r : Result) (f : State → α) : Option α := (nextOf r).map f

/-- T11. -/
theorem test_cls : see (exec .cls State.reset) (fun t => (t.trace, t.pc)) = some ([.clear], 0x202) := by decide
/-- T13. -/
theorem test_ret : see (exec .ret { State.reset with sp := 1, stack := State.reset.stack.set 0 0x250 })
    (fun t => (t.sp, t.pc)) = some (0, 0x252) := by decide
/-- T14. -/
theorem test_ret_underflow : see (exec .ret { State.reset with pc := 0x300 }) (fun t => (t.run, t.pc, t.sp)) =
    some (.halted (.stackUnderflow 0x300), 0x300, 0) := by decide
/-- T15. -/
theorem test_jp : see (exec (.jp 0xABC) State.reset) (·.pc) = some 0xABC := by decide
/-- T19. -/
theorem test_call_last_entry : see (exec (.call 0x300) { State.reset with sp := 15 })
    (fun t => (t.stack[15], t.sp, t.pc)) = some (0x200, 16, 0x300) := by decide
/-- T18. -/
theorem test_call_overflow : see (exec (.call 0x300) { State.reset with sp := 16 }) (fun t => (t.run, t.sp, t.pc)) =
    some (.halted (.stackOverflow 0x200), 16, 0x200) := by decide
/-- T20, T21. -/
theorem test_seImm : see (exec (.seImm 3 0x42) (regs 3 0x42 0 0)) (·.pc) = some 0x204 ∧
    see (exec (.seImm 3 0x42) (regs 3 0x41 0 0)) (·.pc) = some 0x202 := by decide
/-- T22, T23. -/
theorem test_sneImm : see (exec (.sneImm 3 0x42) (regs 3 0x42 0 0)) (·.pc) = some 0x202 ∧
    see (exec (.sneImm 3 0x42) State.reset) (·.pc) = some 0x204 := by decide
/-- T24, T25. -/
theorem test_seReg : see (exec (.seReg 1 2) (regs 1 0x10 2 0x10)) (·.pc) = some 0x204 ∧
    see (exec (.seReg 1 2) (regs 1 0x10 2 0x11)) (·.pc) = some 0x202 := by decide
/-- T28. -/
theorem test_ldImm : see (exec (.ldImm 0xA 0xFF) State.reset) (fun t => (t.getV 0xA, t.pc)) = some (0xFF, 0x202) := by
  decide
/-- T32. -/
theorem test_addImm_wraps_into_VF : see (exec (.addImm 0xF 0x01) (regs 0xF 0xFF 0 0)) (·.getV 0xF) = some 0 := by decide
/-- T34. -/
theorem test_ldReg : see (exec (.ldReg 1 2) (regs 2 0x7C 0xF 0x55)) (fun t => (t.getV 1, t.getV 0xF)) =
    some (0x7C, 0x55) := by decide
/-- T35. -/
theorem test_orReg : see (exec (.orReg 1 2) (regs 1 0xF0 2 0x0F)) (·.getV 1) = some 0xFF := by decide
/-- T36. -/
theorem test_andReg : see (exec (.andReg 1 2) (regs 1 0xF0 2 0x3C)) (·.getV 1) = some 0x30 := by decide
/-- T37. -/
theorem test_xorReg : see (exec (.xorReg 1 2) (regs 1 0xF0 2 0x3C)) (·.getV 1) = some 0xCC := by decide
/-- T41. -/
theorem test_addReg_carry : see (exec (.addReg 0 1) (regs 0 0x80 1 0x80)) (fun t => (t.getV 0, t.getV 0xF)) =
    some (0x00, 1) := by decide
/-- T46, T47: X = F keeps the flag, Y = F adds the old VF. -/
theorem test_addReg_with_VF : see (exec (.addReg 0xF 1) (regs 0xF 0x01 1 0x02)) (·.getV 0xF) = some 0 ∧
    see (exec (.addReg 0 0xF) (regs 0 0x10 0xF 0xF0)) (fun t => (t.getV 0, t.getV 0xF)) = some (0x00, 1) := by decide
/-- T49. -/
theorem test_subReg_borrow : see (exec (.subReg 0 1) (regs 0 0x03 1 0x05)) (fun t => (t.getV 0, t.getV 0xF)) =
    some (0xFE, 0) := by decide
/-- T50, T53. -/
theorem test_subReg_no_borrow : see (exec (.subReg 0 1) (regs 0 0x05 1 0x05)) (fun t => (t.getV 0, t.getV 0xF)) =
    some (0x00, 1) ∧ see (exec (.subReg 0xF 1) (regs 0xF 0x05 1 0x03)) (·.getV 0xF) = some 1 := by decide
/-- T57. -/
theorem test_ldI : see (exec (.ldI 0x2F0) State.reset) (fun t => (t.i, t.pc)) = some (0x2F0, 0x202) := by decide
/-- T60, T61. -/
theorem test_jpV0 : see (exec (.jpV0 0xFFF) (regs 0 0xFF 0 0xFF)) (·.pc) = some 0x10FE ∧
    see (exec (.jpV0 0x500) (regs 5 0x70 0 0x01)) (·.pc) = some 0x501 := by decide
/-- T62 with the draw left free. -/
theorem test_rnd : see (exec (.rnd 3 0x0F) State.reset) (·.getV 3) = some (Config.randomByte 0 &&& 0x0F) := rfl
/-- T65. -/
theorem test_drw : see (exec (.drw 1 2 5) { regs 1 0x08 2 0x10 with i := 0x050 }) (fun t => (t.trace, t.pc)) =
    some ([.draw 0x08 0x10 5 0x050], 0x202) := by decide
/-- T67, T68 with the answer left free. -/
theorem test_skp : see (exec (.skp 5) (regs 5 0x0A 0 0)) (fun t => (t.trace, t.pc)) =
    some ([.keyQuery "A" (Config.keyAnswer 0)], 0x200 + if Config.keyAnswer 0 then 4 else 2) := rfl
/-- T69, T70 with the answer left free. -/
theorem test_sknp : see (exec (.sknp 5) (regs 5 0x1A 0 0)) (fun t => (t.trace, t.pc)) =
    some ([.keyQuery "1A" (Config.keyAnswer 0)], 0x200 + if !Config.keyAnswer 0 then 4 else 2) := rfl
/-- T74. -/
theorem test_ldVxDT : see (exec (.ldVxDT 4) { State.reset with dt := 0x3C }) (·.getV 4) = some 0x3C := by decide
/-- T75. -/
theorem test_ldDTVx : see (exec (.ldDTVx 4) (regs 4 0x3C 0 0)) (fun t => (t.dt, t.st)) = some (0x3C, 0) := by decide
/-- T77. -/
theorem test_ldSTVx : see (exec (.ldSTVx 4) (regs 4 0x02 0 0)) (fun t => (t.dt, t.st)) = some (0, 0x02) := by decide
/-- T79. -/
theorem test_addI_wraps : see (exec (.addI 1) { regs 1 0x01 0 0 with i := 0xFFF }) (fun t => (t.i, t.getV 0xF)) =
    some (0x000, 0) := by decide
/-- T81. -/
theorem test_ldF : see (exec (.ldF 2) (regs 2 0xFF 0 0)) (·.i) = some 0x4FB := by decide
/-- T82. -/
theorem test_ldB : see (exec (.ldB 0) { regs 0 234 0 234 with i := 0x300 }) (fun t => (t.mem, t.i)) =
    some ([(0x300, 2), (0x301, 3), (0x302, 4)], 0x300) := by decide
/-- T88: the writes before the fault remain. -/
theorem test_ldB_fault : see (exec (.ldB 0) { regs 0 123 0 123 with i := 0xFFE, pc := 0x300 })
    (fun t => (t.mem, t.run)) =
    some ([(0xFFE, 1), (0xFFF, 2)], .halted (.busFault .unmapped .write 0x1000 1 0x300)) := by decide
/-- T89. -/
theorem test_ldMemVx : see (exec (.ldMemVx 1) { regs 0 0x11 1 0x22 with i := 0x300 }) (fun t => (t.mem, t.i)) =
    some ([(0x300, 0x11), (0x301, 0x22)], 0x300) := by decide
/-- T91: nothing is written into the ROM. -/
theorem test_ldMemVx_read_only : see (exec (.ldMemVx 2) { regs 0 1 1 2 with i := 0x2FE, pc := 0x300 })
    (fun t => (t.mem, t.run)) = some ([], .halted (.busFault .readOnly .write 0x2FE 1 0x300)) := by decide
/-- T94: the reads span ROM and RAM. -/
theorem test_ldVxMem : see (exec (.ldVxMem 2)
    { State.reset with mem := [(0x2FE, 0xAB), (0x2FF, 0xCD), (0x300, 0xEF)], i := 0x2FE })
    (fun t => (t.getV 0, t.getV 1, t.getV 2, t.getV 3)) = some (0xAB, 0xCD, 0xEF, 0) := by decide
/-- T95: the register loaded before the fault remains. -/
theorem test_ldVxMem_fault : see (exec (.ldVxMem 1) { State.reset with mem := [(0xFFF, 0x77)], i := 0xFFF, pc := 0x300 })
    (fun t => (t.getV 0, t.run)) = some (0x77, .halted (.busFault .unmapped .read 0x1000 1 0x300)) := by decide

/-! ### One step -/

/-- S5, T10. -/
theorem test_step : see (step (State.reset.withFetchWord 16 0x600A)) (fun t => (t.getV 0, t.pc, t.icount)) =
    some (0x0A, 0x202, 1) := by decide
/-- T5: an unknown word, exactly one stop signal, no count. -/
theorem test_step_unknown : see (step (State.reset.withFetchWord 16 0x9120)) (fun t => (t.run, t.trace, t.pc, t.icount)) =
    some (.halted (.unknownOpcode 0x9120 0x200), [.diagnostic (.unknownOpcode 0x9120 0x200), .stopSignal], 0x200, 0) := by
  decide
/-- T1: the last ROM byte. -/
theorem test_step_straddle : see (step { State.reset with pc := 0x2FF }) (·.run) =
    some (.halted (.busFault .straddle .fetch 0x2FF 2 0x2FF)) := by decide
/-- T3. -/
theorem test_step_unmapped : see (step { State.reset with pc := 0x1000 }) (·.run) =
    some (.halted (.busFault .unmapped .fetch 0x1000 2 0x1000)) := by decide
/-- T8. -/
theorem test_step_stop : see (step { State.reset with hostPlan := [.stop] }) (fun t => (t.run, t.trace)) =
    some (.halted .externalStop, []) := by decide
/-- T76: a timer stays at 0. -/
theorem test_step_timer : see (step { State.reset with dt := 2, hostPlan := [.timerDecrement] }) (fun t => (t.dt, t.st)) =
    some (1, 0) := by decide
/-- T7. -/
theorem test_step_init : see (step { State.reset with run := .halted .externalStop, pc := 0x222, mem := [(0x300, 7)], hostPlan := [.init] })
    (fun t => (t.run, t.pc, t.mem)) = some (.running, 0x200, [(0x300, 7)]) := by decide
/-- R361: construction loads the image. -/
theorem test_construct : (construct (launch0 [0x60, 0x0A])).map (fun s => (s.mem, s.pc, s.run)) =
    some ([(0x200, 0x60), (0x201, 0x0A)], 0x200, .running) := by decide
/-- LAUNCH0 with an empty image and the reset state differ in the model's stack and draw counter alone. -/
theorem test_construct_is_reset : (construct (launch0 [])).map (fun s => { s with stack := State.reset.stack, draws := 0 }) =
    some State.reset := rfl

/-! ### The bus -/

/-- T97. -/
theorem test_bus_read : busRead State.reset.map [(0x300, 0x12), (0x301, 0x34), (0x302, 0x56), (0x303, 0x78)] 0x300 4 =
    .ok 0x12345678 := by decide
/-- T98. -/
theorem test_bus_write : busWrite State.reset.map [] 0x300 2 0xBEEF = .ok [(0x300, 0xBE), (0x301, 0xEF)] := by decide
/-- T100. -/
theorem test_bus_straddle : busRead State.reset.map [] 0x1FF 2 = .error .straddle := by decide
/-- T101. -/
theorem test_load_oversize : regionLoadData ⟨0x200, 2, false⟩ [] [1, 2, 3] = .error .loadOversize := by decide

/-! ### Inspection -/

/-- T104, T107, T108, T110, and R292's FX rows. -/
theorem test_disassemble : disassemble 0x03EE = "RET" ∧ disassemble 0x8FE4 = "ADD VF, VE" ∧
    disassemble 0xD01F = "DRW V0, V1, 0xF" ∧ disassemble 0xFA65 = "LD VA, [I]" ∧ disassemble 0x9000 = "0x9000" := by
  decide
/-- T114. -/
theorem test_listing : (disassembly { State.reset with pc := 0xFFC } 4).map (·.1) = [0xFFC, 0xFFE] := by decide
/-- R296. -/
theorem test_snapshot : (snapshot (regs 0xF 0x33 0 0))[18]? = some ⟨"VF", 0x33, 2, .general⟩ := by decide

/-! ### Witnesses: the hypotheses of each obligation can be met -/

theorem witness_DecodedWordAgreesWithEncoding : decode 0x5127 = .ok (.seReg 1 2) := by decide
theorem witness_OneRowPerDecodedWord : (0x5127 : Word) &&& (rowOf (.seReg 1 2)).1 = (rowOf (.seReg 3 4)).2 := by decide
theorem witness_StepRunsDecodedInstruction :
    (State.reset.withFetchWord 16 0x600A).run = .running ∧
    (State.reset.withFetchWord 16 0x600A).canFetch 0x200 = true ∧
    decode (wordOfBytes (Memory.read (State.reset.withFetchWord 16 0x600A).mem 0x200)
      (Memory.read (State.reset.withFetchWord 16 0x600A).mem 0x201)) = .ok (.ldImm 0 0x0A) ∧
    (State.reset.withFetchWord 16 0x600A).hostPlan = [] ∧
    { State.reset.withFetchWord 16 0x600A with hostPlan := [.tick] }.hostPlan = .tick :: [] := by decide
theorem witness_HaltedTickChangesNothing :
    (State.reset.halt (.stackOverflow 0x200)).run = .halted (.stackOverflow 0x200) ∧ State.reset.hostPlan = [] ∧
    { State.reset with run := .halted .externalStop, hostPlan := [.tick, .init] }.hostPlan = .tick :: [.init] := by decide
theorem witness_FetchReadsTwoBytesOrHalts :
    { State.reset with pc := 0x2FE }.canFetch 0x2FE = true ∧ { State.reset with pc := 0xFFE }.canFetch 0xFFE = true ∧
    (ownerOf State.reset.map 0x2FF = some ⟨0x200, 0x100, false⟩ ∧ 0x200 + 0x100 < 0x2FF + 2) ∧
    ownerOf State.reset.map 0x1000 = none ∧ State.reset.run = .running := by decide
theorem witness_UnknownOpcodeHalts : State.reset.run = .running ∧ State.reset.fetch = .ok 0x0000 ∧
    decode 0x0000 = .error (.unknownOpcode 0x0000) := by decide
theorem witness_CompletedTickCountsOnce : State.reset.run = .running ∧
    see (State.reset.withFetchWord 16 0x00E0).tick (·.run) = some .running ∧
    see State.reset.tick (·.run) = some (.halted (.unknownOpcode 0 0x200)) := by decide
theorem witness_HaltsArePrecise : State.reset.run = .running ∧
    exec .ret State.reset = .next (State.reset.halt (.stackUnderflow 0x200)) ∧
    (State.reset.halt (.stackUnderflow 0x200)).run = .halted (.stackUnderflow 0x200) := ⟨rfl, rfl, rfl⟩
theorem witness_HaltsArePrecise_partial :
    see (exec (.ldB 0) { State.reset.setV 0 123 with i := 0xFFF }) (fun t => (t.mem, t.run)) =
      some ([(0xFFF, 1)], .halted (.busFault .unmapped .write 0x1000 1 0x200)) ∧
    see (exec (.ldMemVx 0xF) { regs 0 7 1 8 with i := 0x1FF }) (fun t => (t.mem, t.run)) =
      some ([(0x1FF, 7)], .halted (.busFault .readOnly .write 0x200 1 0x200)) ∧
    see (exec (.ldVxMem 1) { State.reset with mem := [(0xFFF, 9)], i := 0xFFF }) (fun t => (t.getV 0, t.getV 1, t.run)) =
      some (9, 0, .halted (.busFault .unmapped .read 0x1000 1 0x200)) := by decide
theorem witness_OnlyInitLeavesHalted :
    step { State.reset with run := .halted .externalStop } = .next { State.reset with run := .halted .externalStop } ∧
    see (step { State.reset with run := .halted .externalStop, hostPlan := [.init] }) (·.run) = some .running := ⟨rfl, rfl⟩
theorem witness_SelfJumpOnlyCounts : (State.reset.withFetchWord 16 0x1200).run = .running ∧
    (State.reset.withFetchWord 16 0x1200).hostPlan = [] ∧ (State.reset.withFetchWord 16 0x1200).canFetch 0x200 = true ∧
    ((State.reset.withFetchWord 16 0x1200).wordAt 0x200).toNat = 0x1000 + 0x200 := by decide
theorem witness_RetPopsAndResumes : 0 < ({ State.reset with sp := 1 } : State).sp.val ∧
    0 < ({ State.reset with sp := 16 } : State).sp.val ∧ State.reset.sp.val = 0 := by decide
theorem witness_CallPushesOwnAddress : State.reset.sp.val < 16 ∧ ({ State.reset with sp := 15 } : State).sp.val < 16 ∧
    ({ State.reset with sp := 16 } : State).sp.val = 16 := by decide
theorem witness_ReturnResumesAfterCall : State.reset.sp.val < 16 ∧ ({ State.reset with sp := 15 } : State).sp.val < 16 := by
  decide
theorem witness_AddSetsCarry : (0 : Nibble) ≠ 0xF ∧ (1 : Nibble) ≠ 0 ∧ (1 : Nibble) ≠ 0xF := by decide
theorem witness_RandomByteIsMasked : (0x0F : Byte).getLsbD 4 = false ∧ (1 : Nibble) ≠ 0 := by decide
theorem witness_instruction_encodings :
    (opClass 0x0AE0 = 0x0 ∧ opNN 0x0AE0 = 0xE0) ∧ (opClass 0x00EE = 0x0 ∧ opNN 0x00EE = 0xEE) ∧ opClass 0x1234 = 0x1 ∧
    opClass 0x2300 = 0x2 ∧ opClass 0x3A05 = 0x3 ∧ opClass 0x4A05 = 0x4 ∧ opClass 0x5127 = 0x5 ∧ opClass 0x600A = 0x6 ∧
    opClass 0x7303 = 0x7 ∧ (opClass 0x8120 = 0x8 ∧ opN 0x8120 = 0x0) ∧ opN 0x8121 = 0x1 ∧ opN 0x8122 = 0x2 ∧
    opN 0x8123 = 0x3 ∧ opN 0x8014 = 0x4 ∧ opN 0x8015 = 0x5 := by decide
theorem witness_instruction_encodings_A_to_F :
    opClass 0xA2F0 = 0xA ∧ opClass 0xB300 = 0xB ∧ opClass 0xC30F = 0xC ∧ opClass 0xD125 = 0xD ∧
    (opClass 0xE50E = 0xE ∧ opN 0xE50E = 0xE) ∧ opN 0xE501 = 0x1 ∧ (opClass 0xF407 = 0xF ∧ opNN 0xF407 = 0x07) ∧
    opNN 0xF415 = 0x15 ∧ opNN 0xF418 = 0x18 ∧ opNN 0xF11E = 0x1E ∧ opNN 0xF229 = 0x29 ∧ opNN 0xF033 = 0x33 ∧
    opNN 0xF155 = 0x55 ∧ opNN 0xF265 = 0x65 := by decide
theorem witness_BcdStoresThreeDigits :
    (∀ k < 3, State.reset.canWrite (indexAddr State.reset + k) = true) ∧
    (∀ k < 3, ({ State.reset with i := 0xFFD } : State).canWrite (0xFFD + k) = true) ∧
    (∀ j < 2, State.reset.canWrite (0xFFE + j) = true) ∧ State.reset.canWrite (0xFFE + 2) = false ∧
    State.reset.writeFault (0xFFE + 2) = .unmapped := by decide
theorem witness_BlockStoreWritesRegisters :
    (∀ k ≤ 15, State.reset.canWrite (indexAddr State.reset + k) = true) ∧
    ({ State.reset with i := 0xFFF } : State).canWrite (0xFFF + 0) = true ∧ (0xF : Nibble) ≤ 0xF ∧
    (State.reset.canWrite 0x200 = false ∧ State.reset.writeFault 0x200 = .readOnly) ∧
    (∀ j < 15, State.reset.canWrite (0x1F1 + j) = true) ∧ State.reset.canWrite (0x1F1 + 15) = false := by decide
theorem witness_BlockLoadReadsRegisters :
    (∀ k ≤ 15, State.reset.canRead (indexAddr State.reset + k) = true) ∧
    (∀ k ≤ 15, ({ State.reset with i := 0xFF0 } : State).canRead (0xFF0 + k) = true) ∧
    (∀ j < 15, State.reset.canRead (0xFF1 + j) = true) ∧ State.reset.canRead (0xFF1 + 15) = false := by decide
theorem witness_StoredBytesAreFetched :
    (∀ k ≤ 1, ({ State.reset with i := 0x300 } : State).canWrite (0x300 + k) = true) ∧ (0 : Nibble) < 1 ∧
    ({ State.reset with i := 0x300 } : State).canFetch (0x300 + 0) = true := by decide
theorem witness_OnlyListedWritersChangeEachElement :
    see (exec (.addReg 0 1) (regs 0 0xFF 1 1)) (fun t => (t.getV 0, t.getV 0xF)) = some (0, 1) ∧
    see (exec (.ldI 5) State.reset) (·.i) = some 5 ∧ see (exec (.call 5) State.reset) (·.sp) = some 1 ∧
    see (exec (.ldDTVx 1) (regs 1 1 0 0)) (·.dt) = some 1 ∧ see (exec (.ldSTVx 1) (regs 1 1 0 0)) (·.st) = some 1 ∧
    see (exec (.ldB 1) (regs 1 1 0 0)) (·.mem) = some [(2, 1)] := by decide
theorem witness_CounterIsInvisible : exec (.ldI 5) State.reset = .next (State.reset.setI 5).next := rfl
theorem witness_SoundTimerIsInvisible : exec (.ldI 5) State.reset = .next (State.reset.setI 5).next ∧
    exec (.ldSTVx 5) State.reset = .next (State.reset.setST (State.reset.getV 5)).next := ⟨rfl, rfl⟩
theorem witness_DeadStackEntriesAreInvisible :
    sameButDeadStack { State.reset with sp := 1 } { State.reset with sp := 1, stack := State.reset.stack.set 1 7 } :=
  ⟨rfl, by decide⟩
theorem witness_DeadStackEntriesAreInvisible_step :
    see (step ({ State.reset with sp := 1 }.withFetchWord 16 0x00EE)) (fun t => (t.sp, t.pc)) = some (0, 2) := by decide
theorem witness_DelayTimerGrowsOnlyByItsWrite :
    see (step ((regs 4 5 0 0).withFetchWord 16 0xF415)) (·.dt) = some 5 ∧ State.reset.dt.toNat < 5 := by decide
theorem witness_OwnerIsTheCoveringMapping : mapWf State.reset.map := by decide
theorem witness_BusFaultsInOrder : ownerOf State.reset.map 0x1000 = none ∧
    (ownerOf State.reset.map 0x2FF = some ⟨0x200, 0x100, false⟩ ∧ 0x200 + 0x100 < 0x2FF + 2 ∧ 0x2FF + 1 ≤ 0x200 + 0x100) ∧
    (ownerOf State.reset.map 0x1FF = some ⟨0, 0x200, true⟩ ∧ 0x200 < 0x1FF + 2 ∧ 0x1FF + 1 ≤ 0x200) := by decide
theorem witness_BusWriteIsReadBack : ∀ w ∈ [1, 2, 4, 8], (0x7F : Nat) < 256 ^ w ∧
    (busWrite State.reset.map [] (0x1000 - w) w 0x7F).toOption = some [(0xFFF, 0x7F)] := by decide
theorem witness_LoadDataIsAllOrNothing : (Mapping.mk 0x200 1 false).size < [1, 2].length ∧
    [1, 2].length ≤ (Mapping.mk 0x200 2 false).size := by decide
theorem witness_ReadOnlyBytesNeverChange : State.reset.canWrite 0x200 = false ∧ State.reset.canWrite 0x2FF = false ∧
    State.reset.canWrite 0x1000 = false ∧
    see (step (State.reset.withFetchWord 16 0xF055)) (·.pc) = some 0x202 := by decide
theorem witness_InitSetsTheRegisterFile : { State.reset with hostPlan := [.init] }.hostPlan = .init :: [] := by decide
theorem witness_HostActionsBetweenTicks : { State.reset with hostPlan := [.stop] }.hostPlan = .stop :: [] ∧
    State.reset.run = .running ∧ ({ State.reset with run := .halted .externalStop } : State).run = .halted .externalStop ∧
    { State.reset with hostPlan := [.timerDecrement] }.hostPlan = .timerDecrement :: [] ∧
    { State.reset with hostPlan := [.inspect] }.hostPlan = .inspect :: [] := by decide
theorem witness_ConstructionLoadsTheImage : (launch0 [0x60, 0x0A]).wf ∧
    (∀ r ∈ [(⟨0x200, 1, false⟩ : Mapping)], r.base = 0x200 → r.size < [1, 2].length) := by decide
theorem witness_StepKeepsTheMemory : State.MemInv State.reset ∧
    see (step (State.reset.withFetchWord 16 0x00E0)) (·.mem) = some [(0x201, 0xE0)] := by decide
theorem witness_StepKeepsTheHaltReport : State.HaltInv State.reset ∧
    see (step State.reset) (·.trace) = some [.diagnostic (.unknownOpcode 0 0x200), .stopSignal] :=
  ⟨⟨rfl, fun _ h => nomatch h⟩, by decide⟩
theorem witness_ReachableStatesKeepTheImage : (launch0 [0x60, 0x0A]).wf ∧
    (∃ s, Reachable (launch0 [0x60, 0x0A]) s) ∧
    ∀ r ∈ (launch0 [0x60, 0x0A]).map, r.base = 0x200 → r.mutable = false :=
  ⟨by decide, ⟨_, .start _ [] rfl⟩, by decide⟩
theorem witness_MnemonicExactlyWhenExecuted : decode 0x9000 = .error (.unknownOpcode 0x9000) := by decide
theorem witness_TextsFollowTheTemplates : opClass 0x05E0 = 0x0 ∧ opNN 0x05E0 = 0xE0 ∧
    disassemble 0x05E0 = "CLS" ∧ disassemble 0x512F = "SE V1, V2" ∧ disassemble 0xA2F0 = "LD I, 0x2F0" ∧
    disassemble 0xE50E = "SKP V5" := by decide
theorem witness_ListingStopsAtUnreadableWord : (disassembly { State.reset with pc := 0xFFC } 4).length = 2 ∧
    (disassembly State.reset 3).length = 3 := by decide

end Sys2Proof.Tests
end

namespace Sys2Proof.Machine

/-! ### RET and CALL in full -/

theorem execRet_of_pos {s : State} (h : 0 < s.sp.val) :
    execRet s = .next (State.setPc { s with sp := ⟨s.sp.val - 1, by omega⟩ } (s.stack[s.sp.val - 1] + 2)) := by
  simp [execRet, State.pop, h]

theorem execRet_of_zero {s : State} (h : s.sp.val = 0) : execRet s = .next (s.halt (.stackUnderflow s.pc)) := by
  simp [execRet, State.pop, h]

theorem execCall_of_lt (nnn : Addr) {s : State} (h : s.sp.val < 16) :
    execCall nnn s = .next (State.setPc
      { s with stack := s.stack.set s.sp.val s.pc h, sp := ⟨s.sp.val + 1, by omega⟩ } (jumpTarget nnn)) := by
  simp [execCall, State.push, h]

theorem execCall_of_full (nnn : Addr) {s : State} (h : s.sp.val = 16) :
    execCall nnn s = .next (s.halt (.stackOverflow s.pc)) := by
  simp [execCall, State.push, h]

/-! ### What an instruction does not read: ST, icount and, but for RET and CALL, the call stack -/

/-- The two instructions that use the call stack (10_state R37, R38). -/
def usesStack (i : Instr) : Prop := i = .ret ∨ ∃ nnn, i = .call nnn

/-- The state with its stack, ST and icount changed, each by a function of its own value: the three elements most
instructions do not read (10_state R39, R41, R45). -/
def State.onUnread (f : Vector Word 16 → Vector Word 16) (g : Byte → Byte) (c : BitVec 64 → BitVec 64)
    (s : State) : State :=
  { s with stack := f s.stack, st := g s.st, icount := c s.icount }

/-- Change the next state of a result. -/
def mapNext (u : State → State) : Result → Result
  | .next t => .next (u t)
  | .fault e => .fault e
  | .refused r => .refused r

/-- Change the state of an operation that completes or halts. -/
def mapState (u : State → State) : Except State State → Except State State
  | .ok t => .ok (u t)
  | .error t => .error (u t)

section Unread

variable (f : Vector Word 16 → Vector Word 16) (g : Byte → Byte) (c : BitVec 64 → BitVec 64) (s : State)

theorem storeByte_onUnread (a : Nat) (b : Byte) :
    (s.onUnread f g c).storeByte a b = mapState (State.onUnread f g c) (s.storeByte a b) := by
  have hc : (s.onUnread f g c).canWrite a = s.canWrite a := rfl
  rw [State.storeByte_eq, State.storeByte_eq, hc]
  cases s.canWrite a <;> rfl

theorem loadByte_onUnread (x : Nibble) (a : Nat) :
    (s.onUnread f g c).loadByte x a = mapState (State.onUnread f g c) (s.loadByte x a) := by
  have hc : (s.onUnread f g c).canRead a = s.canRead a := rfl
  rw [State.loadByte_eq, State.loadByte_eq, hc]
  cases s.canRead a <;> rfl

theorem storeRun_onUnread (a : Nat) (d : Nat → Byte) (n : Nat) :
    (s.onUnread f g c).storeRun a d n = mapState (State.onUnread f g c) (s.storeRun a d n) := by
  induction n with
  | zero => rfl
  | succ n ih =>
    rw [State.storeRun, State.storeRun, ih]
    cases s.storeRun a d n with
    | ok t => exact storeByte_onUnread f g c t _ _
    | error t => rfl

theorem loadRun_onUnread (a n : Nat) :
    (s.onUnread f g c).loadRun a n = mapState (State.onUnread f g c) (s.loadRun a n) := by
  induction n with
  | zero => rfl
  | succ n ih =>
    rw [State.loadRun, State.loadRun, ih]
    cases s.loadRun a n with
    | ok t => exact loadByte_onUnread f g c t _ _
    | error t => rfl

theorem complete_mapState (r : Except State State) :
    State.complete (mapState (State.onUnread f g c) r) = mapNext (State.onUnread f g c) (State.complete r) := by
  cases r <;> rfl

theorem execRet_onUnread : execRet (s.onUnread id g c) = mapNext (State.onUnread id g c) (execRet s) := by
  rcases Nat.eq_zero_or_pos s.sp.val with h | h
  · rw [execRet_of_zero h, execRet_of_zero (s := s.onUnread id g c) h]
    rfl
  · rw [execRet_of_pos h, execRet_of_pos (s := s.onUnread id g c) h]
    rfl

theorem execCall_onUnread (nnn : Addr) :
    execCall nnn (s.onUnread id g c) = mapNext (State.onUnread id g c) (execCall nnn s) := by
  rcases Nat.lt_succ_iff_lt_or_eq.1 s.sp.isLt with h | h
  · rw [execCall_of_lt nnn h, execCall_of_lt nnn (s := s.onUnread id g c) h]
    rfl
  · rw [execCall_of_full nnn h, execCall_of_full nnn (s := s.onUnread id g c) h]
    rfl

/-- An instruction commutes with a change of the elements it does not read. -/
theorem exec_onUnread (i : Instr) (hf : usesStack i → f = id) (hg : (∃ x, i = .ldSTVx x) → g = id) :
    exec i (s.onUnread f g c) = mapNext (State.onUnread f g c) (exec i s) := by
  cases i with
  | ret => rw [hf (.inl rfl)]; exact execRet_onUnread g c s
  | call nnn => rw [hf (.inr ⟨nnn, rfl⟩)]; exact execCall_onUnread g c s nnn
  | ldSTVx x => rw [hg ⟨x, rfl⟩]; rfl
  | ldB x => exact (congrArg State.complete (storeRun_onUnread f g c s _ _ _)).trans (complete_mapState f g c _)
  | ldMemVx x => exact (congrArg State.complete (storeRun_onUnread f g c s _ _ _)).trans (complete_mapState f g c _)
  | ldVxMem x => exact (congrArg State.complete (loadRun_onUnread f g c s _ _)).trans (complete_mapState f g c _)
  | _ => rfl

end Unread

/-- Settles O40: icount is one of the elements no instruction reads. -/
theorem counterIsInvisible : Obligations.CounterIsInvisible := by
  intro i s t n h
  have e := exec_onUnread id id (fun _ => n) s i (fun _ => rfl) (fun _ => rfl)
  rw [h] at e
  exact e

/-- Settles O59: ST is one of the elements no instruction reads, and LD ST, Vx overwrites it. -/
theorem soundTimerIsInvisible : Obligations.SoundTimerIsInvisible := by
  intro i s t b h
  constructor
  · intro hi
    have e := exec_onUnread id (fun _ => b) id s i (fun _ => rfl) (fun ⟨x, hx⟩ => absurd hx (hi x))
    rw [h] at e
    exact e
  · rintro ⟨x, rfl⟩
    exact h

/-! ### What an instruction writes -/

/-- `s` with the elements that any instruction may advance taken from `t`: pc, the run state, the trace and the free
values drawn. -/
def State.advancedAs (s t : State) : State :=
  { s with pc := t.pc, run := t.run, trace := t.trace, draws := t.draws }

/-- Besides advancing, an instruction writes the elements of one row of 10_state R47 at most. -/
inductive WritesOneRow (i : Instr) (s t : State) : Prop where
  | callStack (hi : usesStack i) (e : t = { s.advancedAs t with sp := t.sp, stack := t.stack })
  | memory (hi : writesMemory i) (e : t = { s.advancedAs t with mem := t.mem })
  | index (hi : writesIndex i) (e : t = { s.advancedAs t with i := t.i })
  | delayTimer (hi : ∃ x, i = .ldDTVx x) (e : t = { s.advancedAs t with dt := t.dt })
  | soundTimer (hi : ∃ x, i = .ldSTVx x) (e : t = { s.advancedAs t with st := t.st })
  | registers (hi : ∀ y, t.getV y ≠ s.getV y → writesReg i y = true ∨ (y = 0xF ∧ definesFlag i))
      (e : t = { s.advancedAs t with v := t.v })

/-- Writing one register writes the registers' row, if that register is a destination of the instruction. -/
theorem writesOneRow_of_setV {i : Instr} {s t : State} {x : Nibble} {b : Byte} (hi : writesReg i x = true)
    (hv : t.v = (s.setV x b).v) (e : t = { s.advancedAs t with v := t.v }) : WritesOneRow i s t := by
  refine .registers (fun y hy => ?_) e
  by_cases hx : y = x
  · exact .inl (hx ▸ hi)
  · exact absurd ((State.getV_congr _ t y hv).trans (s.getV_setV_ne x y b hx)) hy

/-- Writing a result and its flag writes the registers' row, for the two instructions that define a flag. -/
theorem writesOneRow_of_setWithFlag {i : Instr} {s t : State} {x : Nibble} {b : Byte} {flag : Bool}
    (hi : writesReg i x = true) (hf : definesFlag i) (hv : t.v = (s.setWithFlag x b flag).v)
    (e : t = { s.advancedAs t with v := t.v }) : WritesOneRow i s t := by
  refine .registers (fun y hy => ?_) e
  rw [State.getV_congr _ t y hv, State.getV_setWithFlag] at hy
  by_cases hy' : y = flagReg
  · exact .inr ⟨hy', hf⟩
  · by_cases hx : y = x
    · exact .inl (hx ▸ hi)
    · simp [hy', hx] at hy

/-- A block load, completed or halted, has loaded V0 to V(j-1) for some j and changed no other element. -/
theorem complete_loadRun {s t : State} {a n : Nat} (h : State.complete (s.loadRun a n) = .next t) :
    ∃ j ≤ n, t.v = (s.loadedRun a j).v ∧ t = { s.advancedAs t with v := t.v } := by
  rcases s.loadRun_cases a n with ⟨-, e⟩ | ⟨j, hj, -, -, e⟩
  · rw [e] at h
    cases h
    refine ⟨n, le_rfl, rfl, ?_⟩
    rw [s.loadedRun_eq]
    rfl
  · rw [e] at h
    cases h
    refine ⟨j, hj.le, rfl, ?_⟩
    rw [s.loadedRun_eq]
    rfl

/-- A block store, completed or halted, changes memory alone. -/
theorem complete_storeRun {s t : State} {a : Nat} {d : Nat → Byte} {n : Nat}
    (h : State.complete (s.storeRun a d n) = .next t) : t = { s.advancedAs t with mem := t.mem } := by
  rcases s.storeRun_cases a d n with ⟨-, e⟩ | ⟨j, -, -, -, e⟩ <;> rw [e] at h <;> cases h <;> rfl

theorem execLdVxMem_writesOneRow {x : Nibble} {s t : State} (h : execLdVxMem x s = .next t) :
    WritesOneRow (.ldVxMem x) s t := by
  obtain ⟨j, hj, hv, e⟩ := complete_loadRun h
  have hx := x.isLt
  refine .registers (fun y hy => .inl ?_) e
  rw [State.getV_congr _ t y hv, s.loadedRun_getV _ j (by omega)] at hy
  have hlt : y.toNat < j := by
    by_contra hlt
    simp [hlt] at hy
  simpa [writesReg, BitVec.le_def] using (by omega : y.toNat ≤ x.toNat)

theorem execRet_writesCallStack {s t : State} (h : execRet s = .next t) :
    t = { s.advancedAs t with sp := t.sp, stack := t.stack } := by
  rcases Nat.eq_zero_or_pos s.sp.val with hsp | hsp
  · rw [execRet_of_zero hsp] at h
    cases h
    rfl
  · rw [execRet_of_pos hsp] at h
    cases h
    rfl

theorem execCall_writesCallStack {nnn : Addr} {s t : State} (h : execCall nnn s = .next t) :
    t = { s.advancedAs t with sp := t.sp, stack := t.stack } := by
  rcases Nat.lt_succ_iff_lt_or_eq.1 s.sp.isLt with hsp | hsp
  · rw [execCall_of_lt nnn hsp] at h
    cases h
    rfl
  · rw [execCall_of_full nnn hsp] at h
    cases h
    rfl

/-- Which row of 10_state R47 each instruction writes. -/
theorem exec_writesOneRow {i : Instr} {s t : State} (h : exec i s = .next t) : WritesOneRow i s t := by
  cases i with
  | ret => exact .callStack (.inl rfl) (execRet_writesCallStack h)
  | call nnn => exact .callStack (.inr ⟨nnn, rfl⟩) (execCall_writesCallStack h)
  | ldB x => exact .memory (.inl ⟨x, rfl⟩) (complete_storeRun h)
  | ldMemVx x => exact .memory (.inr ⟨x, rfl⟩) (complete_storeRun h)
  | ldVxMem x => exact execLdVxMem_writesOneRow h
  | ldI nnn => cases h; exact .index (.inl ⟨nnn, rfl⟩) rfl
  | addI x => cases h; exact .index (.inr (.inl ⟨x, rfl⟩)) rfl
  | ldF x => cases h; exact .index (.inr (.inr ⟨x, rfl⟩)) rfl
  | ldDTVx x => cases h; exact .delayTimer ⟨x, rfl⟩ rfl
  | ldSTVx x => cases h; exact .soundTimer ⟨x, rfl⟩ rfl
  | addReg x y =>
    cases h
    exact writesOneRow_of_setWithFlag (beq_self_eq_true x) (.inl ⟨x, y, rfl⟩) rfl rfl
  | subReg x y =>
    cases h
    exact writesOneRow_of_setWithFlag (beq_self_eq_true x) (.inr ⟨x, y, rfl⟩) rfl rfl
  | ldImm x | addImm x | ldReg x | orReg x | andReg x | xorReg x | rnd x | ldVxDT x =>
    cases h
    exact writesOneRow_of_setV (beq_self_eq_true x) rfl rfl
  | cls | jp | seImm | sneImm | seReg | jpV0 | drw | skp | sknp =>
    cases h
    exact .registers (fun y hy => absurd rfl hy) rfl

/-- Settles O39: the listed writers of each element are those of the one row the instruction writes. -/
theorem onlyListedWritersChangeEachElement : Obligations.OnlyListedWritersChangeEachElement := by
  intro i s t h
  cases exec_writesOneRow h with
  | callStack hi e => rw [e]; simpa [State.getV, State.advancedAs, usesStack] using fun _ => hi
  | memory hi e | index hi e | delayTimer hi e | soundTimer hi e =>
    rw [e]
    simp [State.getV, State.advancedAs, hi]
  | registers hi e => rw [e]; simpa [State.getV, State.advancedAs] using hi

/-! ### A step: the host's next action -/

/-- The state once the next planned action, if any, has left the plan. -/
def State.planTaken (s : State) : State := { s with hostPlan := s.hostPlan.tail }

theorem planTaken_of_nil {s : State} (h : s.hostPlan = []) : s.planTaken = s := by
  have ht : s.hostPlan.tail = s.hostPlan := by rw [h, List.tail_nil]
  rw [State.planTaken, ht]

/-- A step takes the first planned action, or a tick, and uses up its place in the plan (60_exceptions R328). -/
theorem step_eq_takeAction (s : State) : step s = s.planTaken.takeAction (s.hostPlan.headD .tick) := by
  unfold step State.nextAction
  cases hp : s.hostPlan with
  | nil => rw [planTaken_of_nil hp]; rfl
  | cons a rest => simp only [State.planTaken, hp, List.tail_cons, List.headD_cons]

/-- What a step can do, by the host's action it takes. -/
theorem step_next_cases {s t : State} (h : step s = .next t) :
    s.planTaken.tick = .next t ∨ t = s.planTaken.init ∨ t = s.planTaken.stop ∨ t = s.planTaken.timerDecrement ∨
      t = s.planTaken := by
  rw [step_eq_takeAction] at h
  cases ha : s.hostPlan.headD .tick <;> rw [ha] at h
  case tick => exact .inl h
  case init => cases h; exact .inr (.inl rfl)
  case stop => cases h; exact .inr (.inr (.inl rfl))
  case timerDecrement => cases h; exact .inr (.inr (.inr (.inl rfl)))
  case inspect => cases h; exact .inr (.inr (.inr (.inr rfl)))

theorem tick_of_halted {s : State} {r : HaltReason} (hr : s.run = .halted r) : s.tick = .next s := by
  simp only [State.tick, hr]

theorem tick_of_fetch_error {s : State} {k : BusFaultKind} (hr : s.run = .running) (hf : s.fetch = .error k) :
    s.tick = .next (s.halt (.busFault k .fetch s.pc.toNat 2 s.pc)) := by
  simp only [State.tick, hr, hf]

theorem tick_of_decode_error {s : State} {op : Word} {e : DecodeError} (hr : s.run = .running)
    (hf : s.fetch = .ok op) (hd : decode op = .error e) : s.tick = .next (s.halt (.unknownOpcode op s.pc)) := by
  simp only [State.tick, hr, hf, State.execWord, hd]

theorem tick_of_decode_ok {s : State} {op : Word} {i : Instr} (hr : s.run = .running)
    (hf : s.fetch = .ok op) (hd : decode op = .ok i) : s.tick = retireResult (exec i s) := by
  simp only [State.tick, hr, hf, State.execWord, hd]

/-- What a tick that answers `t` has done: nothing when halted; else it halted at the fetch or the decode, or it
executed and counted, with all that an instruction can do (`exec_cases`). -/
theorem tick_next_cases {s t : State} (h : s.tick = .next t) :
    t = s ∨ (s.run = .running ∧ ∃ r, r.recordedPc = some s.pc ∧ t = s.halt r) ∨
    (s.run = .running ∧ ∃ op i u, s.fetch = .ok op ∧ decode op = .ok i ∧ t = u.retire ∧
      wroteOnly s u.mem ∧ keepsHost s u ∧ (u.dt = s.dt ∨ ∃ x, i = .ldDTVx x ∧ u.dt = s.getV x) ∧
      (completed s u ∨ ∃ r, haltedAt s u r)) := by
  rcases tick_cases s with ⟨r, -, e⟩ | ⟨hr, r, hpc, e⟩ | ⟨hr, op, i, u, hf, hd, hu, e⟩ <;> rw [h] at e <;> cases e
  · exact .inl rfl
  · exact .inr (.inl ⟨hr, r, hpc, rfl⟩)
  · obtain ⟨u', hu', hcases⟩ := exec_cases i s
    rw [hu] at hu'
    cases hu'
    exact .inr (.inr ⟨hr, op, i, u, hf, hd, rfl, hcases⟩)

theorem stop_of_running {s : State} (hr : s.run = .running) : s.stop = { s with run := .halted .externalStop } := by
  simp only [State.stop, hr]

theorem stop_of_halted {s : State} {r : HaltReason} (hr : s.run = .halted r) : s.stop = s := by
  simp only [State.stop, hr]

/-! ### The stack entries not in use (10_state R36, R45) -/

/-- The state with another call stack. -/
def State.withStack (s : State) (k : Vector Word 16) : State := { s with stack := k }

theorem sameButDeadStack.refl (s : State) : sameButDeadStack s s := ⟨rfl, fun _ _ _ => rfl⟩

/-- Two such states are one state with two stacks that agree below sp. -/
theorem sameButDeadStack.exists_stack {s s' : State} (h : sameButDeadStack s s') :
    ∃ k, s' = s.withStack k ∧ ∀ j, (hj : j < 16) → j < s.sp.val → k[j] = s.stack[j] :=
  ⟨s'.stack, h⟩

/-- Updates that keep sp and the stack keep the agreement. -/
theorem sameButDeadStack.of_frame {s t : State} {k : Vector Word 16} (hsp : t.sp = s.sp) (hst : t.stack = s.stack)
    (hk : ∀ j, (hj : j < 16) → j < s.sp.val → k[j] = s.stack[j]) : sameButDeadStack t (t.withStack k) := by
  rw [← hsp, ← hst] at hk
  exact ⟨rfl, hk⟩

/-- RET reads an entry in use, and leaves fewer of them in use. -/
theorem execRet_deadStack {s t : State} {k : Vector Word 16}
    (hk : ∀ j, (hj : j < 16) → j < s.sp.val → k[j] = s.stack[j]) (h : execRet s = .next t) :
    ∃ t', execRet (s.withStack k) = .next t' ∧ sameButDeadStack t t' := by
  rcases Nat.eq_zero_or_pos s.sp.val with hsp | hsp
  · rw [execRet_of_zero hsp] at h
    cases h
    exact ⟨_, execRet_of_zero (s := s.withStack k) hsp, .of_frame (s := s) rfl rfl hk⟩
  · rw [execRet_of_pos hsp] at h
    cases h
    refine ⟨_, execRet_of_pos (s := s.withStack k) hsp, ?_, fun j hj hlt => hk j hj (Nat.lt_of_lt_pred hlt)⟩
    have top : k[s.sp.val - 1] = s.stack[s.sp.val - 1] := hk _ _ (by omega)
    show State.setPc _ (k[s.sp.val - 1] + 2) = _
    rw [top]
    rfl

/-- CALL writes the first entry not in use, and takes it into use. -/
theorem execCall_deadStack {nnn : Addr} {s t : State} {k : Vector Word 16}
    (hk : ∀ j, (hj : j < 16) → j < s.sp.val → k[j] = s.stack[j]) (h : execCall nnn s = .next t) :
    ∃ t', execCall nnn (s.withStack k) = .next t' ∧ sameButDeadStack t t' := by
  rcases Nat.lt_succ_iff_lt_or_eq.1 s.sp.isLt with hsp | hsp
  · rw [execCall_of_lt nnn hsp] at h
    cases h
    refine ⟨_, execCall_of_lt nnn (s := s.withStack k) hsp, rfl, fun j hj hlt => ?_⟩
    show (k.set s.sp.val s.pc hsp)[j] = (s.stack.set s.sp.val s.pc hsp)[j]
    rcases Nat.lt_succ_iff_lt_or_eq.1 hlt with hj' | rfl
    · rw [Vector.getElem_set_ne _ _ (by omega), Vector.getElem_set_ne _ _ (by omega), hk j hj hj']
    · rw [Vector.getElem_set_self, Vector.getElem_set_self]
  · rw [execCall_of_full nnn hsp] at h
    cases h
    exact ⟨_, execCall_of_full nnn (s := s.withStack k) hsp, .of_frame (s := s) rfl rfl hk⟩

theorem exec_deadStack {i : Instr} {s s' t : State} (hs : sameButDeadStack s s') (h : exec i s = .next t) :
    ∃ t', exec i s' = .next t' ∧ sameButDeadStack t t' := by
  obtain ⟨k, rfl, hk⟩ := hs.exists_stack
  by_cases hi : usesStack i
  · obtain rfl | ⟨nnn, rfl⟩ := hi
    · exact execRet_deadStack hk h
    · exact execCall_deadStack hk h
  · have frame := (onlyListedWritersChangeEachElement i s t h).2.2.1
    have e := exec_onUnread (fun _ => k) id id s i (fun h => absurd h hi) (fun _ => rfl)
    rw [h] at e
    have hsp : t.sp = s.sp := by by_contra hne; exact hi (frame (.inl hne))
    have hst : t.stack = s.stack := by by_contra hne; exact hi (frame (.inr hne))
    exact ⟨_, e, .of_frame hsp hst hk⟩

theorem retire_deadStack {s s' : State} (h : sameButDeadStack s s') : sameButDeadStack s.retire s'.retire := by
  obtain ⟨k, rfl, hk⟩ := h.exists_stack
  cases hr : s.run with
  | running =>
    rw [s.retire_running hr, (s.withStack k).retire_running hr]
    exact .of_frame (s := s) rfl rfl hk
  | halted r => rwa [s.retire_halted r hr, (s.withStack k).retire_halted r hr]

theorem stop_deadStack {s s' : State} (h : sameButDeadStack s s') : sameButDeadStack s.stop s'.stop := by
  obtain ⟨k, rfl, hk⟩ := h.exists_stack
  cases hr : s.run with
  | running =>
    rw [stop_of_running hr, stop_of_running (s := s.withStack k) hr]
    exact .of_frame (s := s) rfl rfl hk
  | halted r => rwa [stop_of_halted hr, stop_of_halted (s := s.withStack k) hr]

theorem tick_deadStack {s s' t : State} (hs : sameButDeadStack s s') (h : s.tick = .next t) :
    ∃ t', s'.tick = .next t' ∧ sameButDeadStack t t' := by
  obtain ⟨k, rfl, hk⟩ := hs.exists_stack
  have hfetch : (s.withStack k).fetch = s.fetch := rfl
  cases hr : s.run with
  | halted r =>
    rw [tick_of_halted hr] at h
    cases h
    exact ⟨_, tick_of_halted (s := s.withStack k) hr, hs⟩
  | running =>
    cases hf : s.fetch with
    | error e =>
      rw [tick_of_fetch_error hr hf] at h
      cases h
      exact ⟨_, tick_of_fetch_error (s := s.withStack k) hr (hfetch.trans hf), .of_frame (s := s) rfl rfl hk⟩
    | ok op =>
      cases hd : decode op with
      | error e =>
        rw [tick_of_decode_error hr hf hd] at h
        cases h
        exact ⟨_, tick_of_decode_error (s := s.withStack k) hr (hfetch.trans hf) hd, .of_frame (s := s) rfl rfl hk⟩
      | ok i =>
        obtain ⟨u, hu, -⟩ := exec_cases i s
        obtain ⟨u', hu', hsame⟩ := exec_deadStack hs hu
        rw [tick_of_decode_ok hr hf hd, hu] at h
        cases h
        have ht' : (s.withStack k).tick = .next u'.retire := by
          rw [tick_of_decode_ok (s := s.withStack k) hr (hfetch.trans hf) hd, hu']
          rfl
        exact ⟨u'.retire, ht', retire_deadStack hsame⟩

theorem takeAction_deadStack {s s' t : State} (a : HostAction) (hs : sameButDeadStack s s')
    (h : s.takeAction a = .next t) : ∃ t', s'.takeAction a = .next t' ∧ sameButDeadStack t t' := by
  cases a with
  | tick => exact tick_deadStack hs h
  | init =>
    cases h
    obtain ⟨k, rfl, -⟩ := hs.exists_stack
    exact ⟨_, rfl, .refl _⟩
  | stop =>
    cases h
    exact ⟨_, rfl, stop_deadStack hs⟩
  | timerDecrement =>
    cases h
    obtain ⟨k, rfl, hk⟩ := hs.exists_stack
    exact ⟨_, rfl, .of_frame (s := s) rfl rfl hk⟩
  | inspect =>
    cases h
    exact ⟨_, rfl, hs⟩

/-- Settles O41: what a step does with the stack entries in use is the same whatever the others hold. -/
theorem deadStackEntriesAreInvisible : Obligations.DeadStackEntriesAreInvisible := by
  intro s s' t hs h
  obtain ⟨k, rfl, hk⟩ := hs.exists_stack
  rw [step_eq_takeAction] at h ⊢
  exact takeAction_deadStack _ (.of_frame (s := s) (t := s.planTaken) rfl rfl hk) h

/-! ### The delay timer (10_state R39, 60_exceptions R335) -/

theorem countDown_le (b : Byte) : (countDown b).toNat ≤ b.toNat := by
  unfold countDown
  split
  · exact Nat.zero_le _
  · bv_omega

/-- What a tick does to DT: nothing, or the write of the LD DT, Vx it fetched. -/
theorem tick_dt {s t : State} (h : s.tick = .next t) :
    t.dt = s.dt ∨ ∃ op x, s.fetch = .ok op ∧ decode op = .ok (.ldDTVx x) ∧ t.dt = s.getV x := by
  rcases tick_next_cases h with rfl | ⟨-, r, -, rfl⟩ | ⟨-, op, i, u, hf, hd, rfl, -, -, hdt, -⟩
  · exact .inl rfl
  · exact .inl rfl
  · rw [State.retire_dt]
    rcases hdt with hdt | ⟨x, rfl, hdt⟩
    · exact .inl hdt
    · exact .inr ⟨op, x, hf, hd, hdt⟩

/-- Settles O42: a tick changes DT by LD DT, Vx only, and every other action of the host leaves it or lowers it. -/
theorem delayTimerGrowsOnlyByItsWrite : Obligations.DelayTimerGrowsOnlyByItsWrite := by
  intro s t h hlt
  have grown : ¬ t.dt.toNat ≤ s.dt.toNat := not_le.2 hlt
  rcases step_next_cases h with h | rfl | rfl | rfl | rfl
  · rcases tick_dt h with hdt | hw
    · exact absurd (congrArg BitVec.toNat hdt).le grown
    · exact hw
  · exact absurd (Nat.zero_le _) grown
  · rw [State.stop_dt] at grown
    exact absurd le_rfl grown
  · exact absurd (countDown_le s.dt) grown
  · exact absurd le_rfl grown

/-! ### The memory invariant -/

theorem tick_wroteOnly {s t : State} (h : s.tick = .next t) : wroteOnly s t.mem ∧ t.map = s.map := by
  rcases tick_next_cases h with rfl | ⟨-, r, -, rfl⟩ | ⟨-, op, i, u, -, -, rfl, hw, ⟨hmap, -⟩, -⟩
  · exact ⟨wroteOnly_self t, rfl⟩
  · exact ⟨wroteOnly_self s, rfl⟩
  · rw [State.retire_mem, State.retire_map]
    exact ⟨hw, hmap⟩

/-- Whatever the host does, a step writes writable bytes only and keeps the map (20_memory R75, R77). -/
theorem step_wroteOnly {s t : State} (h : step s = .next t) : wroteOnly s t.mem ∧ t.map = s.map := by
  rcases step_next_cases h with h | rfl | rfl | rfl | rfl
  · exact tick_wroteOnly (s := s.planTaken) h
  · exact ⟨wroteOnly_self s, rfl⟩
  · rw [State.stop_mem, State.stop_map]
    exact ⟨wroteOnly_self s, rfl⟩
  · exact ⟨wroteOnly_self s, rfl⟩
  · exact ⟨wroteOnly_self s, rfl⟩

/-- Settles O53: a step writes writable bytes only, and these are mapped. -/
theorem stepKeepsTheMemory : Obligations.StepKeepsTheMemory := by
  rintro s t ⟨hwf, hmapped, hmap⟩ h
  obtain ⟨hw, hm⟩ := step_wroteOnly h
  obtain ⟨hwf', hmapped'⟩ := wroteOnly_keeps s t.mem hw hwf hmapped
  refine ⟨hwf', fun c hc => ?_, hm ▸ hmap⟩
  rw [State.canRead, hm]
  exact hmapped' c hc

/-! ### The halt invariant -/

/-- A running state that meets the invariant has reported no halt. -/
theorem haltReports_of_running {s : State} (hs : s.HaltInv) (hr : s.run = .running) :
    s.trace.filter Event.isHaltReport = [] := by
  rw [hs.1, hr]
  rfl

/-- The halt invariant speaks of pc, the run state and the trace alone. -/
theorem haltInv_congr {s t : State} (hs : s.HaltInv) (hpc : t.pc = s.pc) (hrun : t.run = s.run)
    (htr : t.trace = s.trace) : t.HaltInv := by
  unfold State.HaltInv
  rw [hpc, hrun, htr]
  exact hs

/-- Taking an exception while running meets the invariant: one diagnostic, one stop signal, pc as recorded. -/
theorem haltInv_of_halt {s t : State} {r : HaltReason} (hs : s.HaltInv) (hr : s.run = .running)
    (hpc : r.recordedPc = some s.pc) (ht : t.pc = s.pc) (hrun : t.run = .halted r)
    (htr : t.trace = s.trace ++ [.diagnostic r, .stopSignal]) : t.HaltInv := by
  refine ⟨?_, fun r' hr' pc hpc' => ?_⟩
  · rw [htr, List.filter_append, haltReports_of_running hs hr, hrun]
    cases r with
    | externalStop => cases hpc
    | _ => rfl
  · rw [hrun] at hr'
    cases hr'
    rw [ht]
    exact Option.some.inj (hpc.symm.trans hpc')

theorem haltInv_of_completed {s t : State} (hs : s.HaltInv) (hr : s.run = .running) (h : completed s t) :
    t.HaltInv := by
  obtain ⟨hrun, htr⟩ := h
  rw [hr] at hrun
  refine ⟨?_, fun r hr' => by rw [hrun] at hr'; cases hr'⟩
  rw [hrun]
  rcases htr with htr | ⟨e, he, htr⟩
  · rw [htr, haltReports_of_running hs hr]
    rfl
  · rw [htr, List.filter_append, haltReports_of_running hs hr]
    simp [he, haltReports]

theorem tick_keeps_haltInv {s t : State} (hs : s.HaltInv) (h : s.tick = .next t) : t.HaltInv := by
  rcases tick_next_cases h with rfl | ⟨hr, r, hpc, rfl⟩ | ⟨hr, op, i, u, -, -, rfl, -, -, -, hc⟩
  · exact hs
  · exact haltInv_of_halt hs hr hpc rfl rfl rfl
  · refine haltInv_congr ?_ u.retire_pc u.retire_run u.retire_trace
    rcases hc with hc | ⟨r, e, hpc⟩
    · exact haltInv_of_completed hs hr hc
    · exact haltInv_of_halt hs hr hpc (congrArg State.pc e :) (congrArg State.run e :) (congrArg State.trace e :)

theorem init_haltInv (s : State) : s.init.HaltInv := ⟨rfl, fun _ h => nomatch h⟩

theorem stop_keeps_haltInv {s : State} (hs : s.HaltInv) : s.stop.HaltInv := by
  cases hr : s.run with
  | halted r => rwa [stop_of_halted hr]
  | running =>
    rw [stop_of_running hr]
    refine ⟨haltReports_of_running (s := s) hs hr, fun r hr' pc hpc => ?_⟩
    cases hr'
    cases hpc

/-- Every step keeps the halt invariant (60_exceptions R321, R322, R323). -/
theorem step_keeps_haltInv {s t : State} (hs : s.HaltInv) (h : step s = .next t) : t.HaltInv := by
  have hs' : s.planTaken.HaltInv := hs
  rcases step_next_cases h with h | rfl | rfl | rfl | rfl
  · exact tick_keeps_haltInv hs' h
  · exact init_haltInv _
  · exact stop_keeps_haltInv hs'
  · exact haltInv_congr hs' rfl rfl rfl
  · exact hs'

/-! ### The image a launch loads -/

/-- An address can be read exactly when some mapping covers it. -/
theorem canRead_iff_mapped (s : State) (a : Nat) : s.canRead a = true ↔ mapped s.map a := by
  simp [State.canRead, ownerOf, owns, List.find?_isSome, mapped]

/-- In a valid map at most one mapping covers an address (20_memory R75). -/
theorem eq_of_covers {map : List Mapping} (h : mapWf map) {r r' : Mapping} (hr : r ∈ map) (hr' : r' ∈ map) {a : Nat}
    (ha : r.base ≤ a ∧ a < r.base + r.size) (ha' : r'.base ≤ a ∧ a < r'.base + r'.size) : r = r' := by
  by_contra hne
  have : Std.Symm Mapping.disjoint := ⟨fun _ _ h => h.symm⟩
  have := h.2.forall hr hr' hne
  omega

/-- A byte of a read-only mapping of a valid map cannot be written. -/
theorem canWrite_eq_false {s : State} (h : mapWf s.map) {r : Mapping} (hr : r ∈ s.map) (hm : r.mutable = false)
    {a : Nat} (ha : r.base ≤ a ∧ a < r.base + r.size) : s.canWrite a = false := by
  unfold State.canWrite
  cases ho : ownerOf s.map a with
  | none => rfl
  | some r' =>
    rw [eq_of_covers h hr (ownerOf_mem _ _ _ ho) ha (ownerOf_range _ _ _ ho)] at hm
    exact hm

/-- Bytes written at consecutive addresses list no address but those listed before and their own. -/
theorem Memory.mem_writeBytes {m : Memory} {a : Nat} {bs : List Byte} {c : Host.Cell}
    (h : c ∈ Memory.writeBytes m a bs) : c ∈ m ∨ a ≤ c.1 ∧ c.1 < a + bs.length := by
  induction bs generalizing m a with
  | nil => exact .inl h
  | cons b bs ih =>
    rw [List.length_cons]
    rcases ih h with hm | hin
    · rcases Memory.mem_write _ _ _ _ hm with hm | he
      · exact .inl hm
      · exact .inr (by omega)
    · exact .inr (by omega)

/-- A system that is constructed has its image written into a mapping of its map at `romBase` that is large enough
(70_reset_and_hazards R361, R367). -/
theorem construct_cases {l : Launch} {s : State} (h : construct l = some s) :
    ∃ r ∈ l.map, r.base = l.romBase ∧ l.romImage.length ≤ r.size ∧
      s = State.init { State.reset with
        mem := Memory.writeBytes l.memInit l.romBase l.romImage, map := l.map, vInit := l.vInit } := by
  unfold construct at h
  cases hf : l.map.find? (fun r => r.base == l.romBase) with
  | none => simp [hf] at h
  | some r =>
    have hb : r.base = l.romBase := by simpa using List.find?_some hf
    by_cases hlen : r.size < l.romImage.length
    · simp [hf, regionLoadData, hlen] at h
    · simp only [hf, regionLoadData, hlen, if_false, hb, Option.some.injEq] at h
      exact ⟨r, List.mem_of_find?_eq_some hf, hb, not_lt.1 hlen, h.symm⟩

/-- The image stands where it was loaded. -/
def imageStands (l : Launch) (m : Memory) : Prop :=
  ∀ k, (h : k < l.romImage.length) → Memory.read m (l.romBase + k) = l.romImage[k]

theorem imageStands_writeBytes (l : Launch) :
    imageStands l (Memory.writeBytes l.memInit l.romBase l.romImage) := by
  intro k hk
  rw [Memory.read_writeBytes, dif_pos (by omega)]
  simp only [Nat.add_sub_cancel_left]

theorem construct_memInv {l : Launch} {s : State} (hl : l.wf) (h : construct l = some s) : s.MemInv := by
  obtain ⟨hmap, -, hsorted, hcells⟩ := hl
  obtain ⟨r, hr, hb, hlen, rfl⟩ := construct_cases h
  refine ⟨Memory.wf_writeBytes _ _ _ ⟨hsorted, fun c hc => (hcells c hc).1⟩, fun c hc => ?_, hmap⟩
  rw [canRead_iff_mapped]
  rcases Memory.mem_writeBytes hc with hc | hin
  · exact (hcells c hc).2
  · exact ⟨r, hr, by omega⟩

/-- What every state of every run of a well-formed launch meets. -/
def LaunchInv (l : Launch) (s : State) : Prop :=
  s.MemInv ∧ s.HaltInv ∧ s.map = l.map ∧
    ((∀ r ∈ l.map, r.base = l.romBase → r.mutable = false) → imageStands l s.mem)

theorem construct_launchInv {l : Launch} {s : State} (hl : l.wf) (h : construct l = some s) : LaunchInv l s := by
  have hmem := construct_memInv hl h
  obtain ⟨r, -, -, -, rfl⟩ := construct_cases h
  exact ⟨hmem, init_haltInv _, rfl, fun _ => imageStands_writeBytes l⟩

theorem step_keeps_launchInv {l : Launch} {s t : State} (hl : l.wf) (hs : LaunchInv l s) (h : step s = .next t) :
    LaunchInv l t := by
  obtain ⟨hmem, hhalt, hmap, himage⟩ := hs
  obtain ⟨hw, hm⟩ := step_wroteOnly h
  refine ⟨stepKeepsTheMemory s t hmem h, step_keeps_haltInv hhalt h, hm.trans hmap, fun hro k hk => ?_⟩
  obtain ⟨hwf, ⟨r, hr, hb, hlen⟩, -⟩ := hl
  have hfix : s.canWrite (l.romBase + k) = false :=
    canWrite_eq_false (hmap ▸ hwf) (hmap ▸ hr) (hro r hr hb) (by omega)
  exact (wroteOnly_read s t.mem hw _ hfix).trans (himage hro k hk)

theorem reachable_launchInv {l : Launch} {s : State} (hl : l.wf) (h : Reachable l s) : LaunchInv l s := by
  induction h with
  | start s plan h => exact construct_launchInv (s := s) hl h
  | step s t hs h ih => exact step_keeps_launchInv hl ih h

/-- Settles O55: construction meets both invariants and loads the image, and every step keeps them and, in a read-only
region, the image. -/
theorem reachableStatesKeepTheImage : Obligations.ReachableStatesKeepTheImage := by
  intro l s hl h
  obtain ⟨hmem, hhalt, -, himage⟩ := reachable_launchInv hl h
  exact ⟨hmem, hhalt, himage⟩

/-! ### Reset -/

/-- Settles O48, field by field. -/
theorem resetValues : Obligations.ResetValues := ⟨rfl, rfl, rfl, rfl, rfl, rfl, rfl, rfl⟩

/-- The default map is valid for every capacity it admits (20_memory R80). -/
theorem mapWf_defaultMap {c : Nat} (h : romCapacityWf c) : mapWf (Config.defaultMap c) := by
  obtain ⟨hpos, hle⟩ := h
  simp only [Config.romBase, Config.addrSpaceSize] at hle
  unfold Config.defaultMap
  split <;> simp [mapWf, Mapping.wf, Mapping.disjoint, Config.romBase, Config.addrSpaceSize] at * <;> omega

/-- Settles O52: reset lists no byte, has a default map and an empty trace, and runs. -/
theorem resetMeetsTheInvariants : Obligations.ResetMeetsTheInvariants := by
  have hwf : Memory.wf [] := ⟨.nil, fun _ h => nomatch h⟩
  have hmap : mapWf (Config.defaultMap 0x100) := mapWf_defaultMap (by decide)
  exact ⟨⟨hwf, fun _ h => (nomatch h), hmap⟩, rfl, fun _ h => nomatch h⟩

end Sys2Proof.Machine

namespace Sys2Proof.Machine

/-! ### Memory regions and the bus (20_memory R73 to R77) -/

/-- Settles O43: a mapping that covers the address makes the search succeed, and a valid map has one such mapping. -/
theorem ownerIsTheCoveringMapping : Obligations.OwnerIsTheCoveringMapping := by
  intro map a r hwf
  constructor
  · intro ho
    exact ⟨ownerOf_mem map a r ho, ownerOf_range map a r ho⟩
  · rintro ⟨hr, hcover⟩
    cases ho : ownerOf map a with
    | none =>
      have hnone := List.find?_eq_none.1 ho r hr
      simp [owns, hcover] at hnone
    | some r' => rw [eq_of_covers hwf hr (ownerOf_mem map a r' ho) hcover (ownerOf_range map a r' ho)]

section Bus

variable {map : List Mapping} {r : Mapping} {a w : Nat}

theorem busRead_of_unmapped (m : Memory) (w : Nat) (ho : ownerOf map a = none) :
    busRead map m a w = .error .unmapped := by
  rw [busRead_eq, ho]

theorem busWrite_of_unmapped (m : Memory) (w v : Nat) (ho : ownerOf map a = none) :
    busWrite map m a w v = .error .unmapped := by
  rw [busWrite_eq, ho]

theorem busRead_of_straddle (m : Memory) (ho : ownerOf map a = some r) (hend : r.base + r.size < a + w) :
    busRead map m a w = .error .straddle := by
  simp only [busRead_eq, ho, if_pos hend]

theorem busWrite_of_straddle (m : Memory) (v : Nat) (ho : ownerOf map a = some r) (hend : r.base + r.size < a + w) :
    busWrite map m a w v = .error .straddle := by
  simp only [busWrite_eq, ho, if_pos hend]

theorem busRead_of_within (m : Memory) (ho : ownerOf map a = some r) (hend : a + w ≤ r.base + r.size) :
    busRead map m a w = .ok (Memory.readBE m a w) := by
  simp only [busRead_eq, ho, if_neg hend.not_gt]

theorem busWrite_of_readOnly (m : Memory) (v : Nat) (ho : ownerOf map a = some r) (hend : a + w ≤ r.base + r.size)
    (hm : r.mutable = false) : busWrite map m a w v = .error .readOnly := by
  simp only [busWrite_eq, ho, if_neg hend.not_gt, hm, Bool.false_eq_true, if_false]

theorem busWrite_of_writable (m : Memory) (v : Nat) (ho : ownerOf map a = some r) (hend : a + w ≤ r.base + r.size)
    (hm : r.mutable = true) : busWrite map m a w v = .ok (Memory.writeBE m a w v) := by
  simp only [busWrite_eq, ho, if_neg hend.not_gt, hm, if_true]

/-- A bus write that completes stayed within one writable region and wrote its bytes there. -/
theorem busWrite_ok_cases {m m' : Memory} {v : Nat} (h : busWrite map m a w v = .ok m') :
    ∃ r, ownerOf map a = some r ∧ a + w ≤ r.base + r.size ∧ r.mutable = true ∧ m' = Memory.writeBE m a w v := by
  cases ho : ownerOf map a with
  | none =>
    rw [busWrite_of_unmapped m w v ho] at h
    cases h
  | some r =>
    rcases lt_or_ge (r.base + r.size) (a + w) with hend | hend
    · rw [busWrite_of_straddle m v ho hend] at h
      cases h
    · cases hm : r.mutable with
      | false =>
        rw [busWrite_of_readOnly m v ho hend hm] at h
        cases h
      | true =>
        rw [busWrite_of_writable m v ho hend hm] at h
        cases h
        exact ⟨r, rfl, hend, hm, rfl⟩

end Bus

/-- Settles O44, fault by fault. -/
theorem busFaultsInOrder : Obligations.BusFaultsInOrder := by
  intro map m a w v
  refine ⟨fun ho => ?_, fun r ho => ⟨fun hend => ?_, fun hend => ?_⟩⟩
  · exact ⟨busRead_of_unmapped m w ho, busWrite_of_unmapped m w v ho⟩
  · exact ⟨busRead_of_straddle m ho hend, busWrite_of_straddle m v ho hend⟩
  · exact ⟨busRead_of_within m ho hend, busWrite_of_readOnly m v ho hend, busWrite_of_writable m v ho hend⟩

/-- Big-endian: the byte at offset `k` of a multi-byte write is the value's `k`-th from the most significant (R72, R82). -/
theorem Memory.read_writeBE_inside (m : Memory) (a w v k : Nat) (hk : k < w) :
    (Memory.read (Memory.writeBE m a w v) (a + k)).toNat = v / 256 ^ (w - 1 - k) % 256 := by
  induction w generalizing v with
  | zero => exact absurd hk (Nat.not_lt_zero k)
  | succ w ih =>
    rw [Memory.writeBE, Memory.read_write]
    rcases Nat.lt_succ_iff_lt_or_eq.1 hk with hlt | rfl
    · have hexp : w + 1 - 1 - k = (w - 1 - k) + 1 := by omega
      rw [if_neg (by omega), ih _ hlt, Nat.div_div_eq_div_mul, hexp, pow_succ']
    · simp

/-- Settles O45: a write that completes is `Memory.writeBE` within one region, so a read there completes too. -/
theorem busWriteIsReadBack : Obligations.BusWriteIsReadBack := by
  intro map m m' a w v _ hv h
  obtain ⟨r, ho, hend, -, rfl⟩ := busWrite_ok_cases h
  refine ⟨?_, Memory.read_writeBE_inside m a w v, Memory.read_writeBE_outside m a w v⟩
  rw [busRead_of_within _ ho hend, Memory.readBE_writeBE, Nat.mod_eq_of_lt hv]

/-- Settles O46: `loadData` tests the length before it writes, and does not look at whether the region is writable. -/
theorem loadDataIsAllOrNothing : Obligations.LoadDataIsAllOrNothing := by
  intro r m buffer
  constructor
  · intro hlen
    rw [regionLoadData, if_pos hlen]
  · intro hlen
    have hload : regionLoadData r m buffer = .ok (Memory.writeBytes m r.base buffer) := by
      rw [regionLoadData, if_neg hlen.not_gt]
    refine ⟨_, hload, fun k hk => ?_, fun a ha => ?_⟩
    · rw [Memory.read_writeBytes, dif_pos (by omega)]
      simp only [Nat.add_sub_cancel_left]
    · rw [Memory.read_writeBytes, dif_neg (by omega)]

/-- Settles O47: a step writes writable bytes only. -/
theorem readOnlyBytesNeverChange : Obligations.ReadOnlyBytesNeverChange :=
  fun s t a h ha => wroteOnly_read s t.mem (step_wroteOnly h).1 a ha

/-! ### A block store, then a fetch (20_memory R89, 46_misc R256) -/

/-- Two bytes that one region owns are fetched as their word (40_cycle R142). -/
theorem fetch_of_canFetch {s : State} (h : s.canFetch s.pc.toNat = true) : s.fetch = .ok (s.wordAt s.pc.toNat) := by
  rw [State.fetch_eq]
  unfold State.canFetch at h
  cases ho : ownerOf s.map s.pc.toNat with
  | none => simp [ho] at h
  | some r =>
    simp only [ho, decide_eq_true_eq] at h
    exact if_neg h.not_gt

/-- A block store whose bytes can all be written completes. -/
theorem storeRun_of_canWrite {s : State} {a n : Nat} (f : Nat → Byte) (h : ∀ k < n, s.canWrite (a + k) = true) :
    s.storeRun a f n = .ok (s.setMem (Memory.writeRun s.mem a f n)) := by
  rcases s.storeRun_cases a f n with ⟨-, e⟩ | ⟨j, hj, -, hf, -⟩
  · exact e
  · rw [h j hj] at hf
    cases hf

/-- Memory after LD [I], Vx has stored all its registers. -/
def State.storedRegs (s : State) (x : Nibble) : Memory := Memory.writeRun s.mem (indexAddr s) (regAt s) (x.toNat + 1)

theorem exec_ldMemVx_of_canWrite {s : State} {x : Nibble} (h : ∀ k ≤ x.toNat, s.canWrite (indexAddr s + k) = true) :
    exec (.ldMemVx x) s = .next (s.setMem (s.storedRegs x)).next :=
  congrArg State.complete (storeRun_of_canWrite (regAt s) fun k hk => h k (Nat.lt_succ_iff.1 hk))

theorem regAt_toNat (s : State) (y : Nibble) : regAt s y.toNat = s.getV y := by
  rw [regAt, BitVec.ofNat_toNat, BitVec.setWidth_eq]

theorem State.read_storedRegs (s : State) {x y : Nibble} (h : y ≤ x) :
    Memory.read (s.storedRegs x) (indexAddr s + y.toNat) = s.getV y := by
  have hle : y.toNat ≤ x.toNat := h
  rw [State.storedRegs, Memory.read_writeRun, if_pos (by omega), Nat.add_sub_cancel_left, regAt_toNat]

/-- Settles O38: the fetch reads the two bytes that the store wrote for V[y] and V[y+1]. -/
theorem storedBytesAreFetched : Obligations.StoredBytesAreFetched := by
  intro s x y hw hyx hf
  refine ⟨_, exec_ldMemVx_of_canWrite hw, ?_⟩
  have hpc : (BitVec.ofNat 16 (indexAddr s + y.toNat)).toNat = indexAddr s + y.toNat := by
    have hi : indexAddr s < 4096 := s.i.isLt
    have hy : y.toNat < 16 := y.isLt
    rw [BitVec.toNat_ofNat, Nat.mod_eq_of_lt (by omega)]
  have hnext : (y + 1).toNat = y.toNat + 1 := by bv_omega
  have hle : y + 1 ≤ x := by bv_omega
  have hlo := s.read_storedRegs hle
  rw [hnext] at hlo
  rw [fetch_of_canFetch (by rw [hpc]; exact hf), hpc, State.wordAt, State.next_mem, State.setMem_mem,
    s.read_storedRegs (BitVec.le_of_lt hyx), Nat.add_assoc, hlo]

end Sys2Proof.Machine

namespace Sys2Proof

/-! ### Encode, then decode (30_encoding R111 to R114) -/

/-- Settles O2: each shape of word gives back the fields it was built from, and they choose the arm of the decoder. -/
theorem decodeOfEncodeIsIdentity : Obligations.DecodeOfEncodeIsIdentity := by
  intro i
  cases i with
  | cls | ret => rfl
  | jp | call | ldI | jpV0 | seImm | sneImm | ldImm | addImm | rnd | seReg | drw => simp [encode, decode]
  | ldReg | orReg | andReg | xorReg | addReg | subReg => simp [encode, decode, decodeClass8]
  | skp | sknp => simp [encode, decode, decodeClassE, opN_wordOfXNN]
  | ldVxDT | ldDTVx | ldSTVx | addI | ldF | ldB | ldMemVx | ldVxMem => simp [encode, decode, decodeClassF]

/-! ### Decode, then encode (30_encoding R113, R116) -/

section Shapes

variable {op : Word} {c n : Nibble} {nn : Byte}

theorem eq_wordOfNNN (hc : opClass op = c) : op = wordOfNNN c (opNNN op) :=
  BitVec.eq_of_toNat_eq (by rw [wordOfNNN_toNat, ← hc, opClass_toNat, opNNN_toNat]; omega)

theorem eq_wordOfXNN (hc : opClass op = c) (hnn : opNN op = nn) : op = wordOfXNN c (opX op) nn :=
  BitVec.eq_of_toNat_eq (by rw [wordOfXNN_toNat, ← hc, ← hnn, opClass_toNat, opX_toNat, opNN_toNat]; omega)

theorem eq_wordOfNibbles (hc : opClass op = c) (hn : opN op = n) : op = wordOfNibbles c (opX op) (opY op) n := by
  rw [← hc, ← hn]
  exact word_eq_nibbles op

end Shapes

/-- A word whose low byte is given by its two nibbles. -/
theorem wordOfXNN_append (c x y n : Nibble) : wordOfXNN c x (y ++ n) = wordOfNibbles c x y n := by
  have h := BitVec.append_assoc (x₁ := c ++ x) (x₂ := y) (x₃ := n)
  rw [BitVec.cast_eq] at h
  exact h.symm

/-- Bitwise and acts on the nibbles of a word one by one. -/
theorem wordOfNibbles_and (c x y n c' x' y' n' : Nibble) :
    wordOfNibbles c x y n &&& wordOfNibbles c' x' y' n' =
      wordOfNibbles (c &&& c') (x &&& x') (y &&& y') (n &&& n') := by
  have h := BitVec.and_append (x₁ := c ++ x ++ y) (x₂ := c' ++ x' ++ y') (y₁ := n) (y₂ := n')
  rw [BitVec.and_append (x₁ := c ++ x), BitVec.and_append (x₁ := c)] at h
  exact h

theorem nibble_and_ones (x : Nibble) : x &&& 15#4 = x := BitVec.and_allOnes

theorem and_clears_opY (c x y n : Nibble) : wordOfNibbles c x y n &&& ~~~ 0x00F0 = wordOfNibbles c x 0 n := by
  refine (wordOfNibbles_and c x y n 0xF 0xF 0 0xF).trans ?_
  simp [nibble_and_ones]

theorem and_clears_opN (c x y n : Nibble) : wordOfNibbles c x y n &&& ~~~ 0x000F = wordOfNibbles c x y 0 := by
  refine (wordOfNibbles_and c x y n 0xF 0xF 0xF 0).trans ?_
  simp [nibble_and_ones]

/-- The word spells the instruction: it is the instruction's encoding but for the don't-care nibble (R116). -/
def Spells (op : Word) (i : Instr) : Prop := op &&& ~~~ dontCare i = encode i &&& ~~~ dontCare i

section Spelling

variable {op : Word} {i : Instr}

theorem spells_of_eq_encode (h : op = encode i) : Spells op i := by
  rw [Spells, ← h]

/-- `op[11:8]` is the don't-care nibble of class 0. -/
theorem spells_of_decodeClass0 (hc : opClass op = 0x0) (h : decodeClass0 op = .ok i) : Spells op i := by
  unfold decodeClass0 at h
  split at h <;> cases h
  all_goals
    rw [eq_wordOfXNN hc ‹_›]
    exact Laws.EncodeRow.and_low_byte _ _ _

theorem spells_of_seReg (hc : opClass op = 0x5) : Spells op (.seReg (opX op) (opY op)) :=
  calc op &&& ~~~ 0x000F = wordOfNibbles 0x5 (opX op) (opY op) (opN op) &&& ~~~ 0x000F := by
        rw [← eq_wordOfNibbles hc rfl]
    _ = wordOfNibbles 0x5 (opX op) (opY op) 0x0 := and_clears_opN _ _ _ _
    _ = wordOfNibbles 0x5 (opX op) (opY op) 0x0 &&& ~~~ 0x000F := (and_clears_opN _ _ _ _).symm

theorem spells_of_decodeClass8 (hc : opClass op = 0x8) (h : decodeClass8 op = .ok i) : Spells op i := by
  unfold decodeClass8 at h
  split at h <;> cases h
  all_goals exact spells_of_eq_encode (eq_wordOfNibbles hc ‹_›)

/-- `op[7:4]` is the don't-care nibble of class E: any value of it spells what the encoder's `y` does. -/
theorem and_clears_opY_of_classE {n : Nibble} (hc : opClass op = 0xE) (hn : opN op = n) (y : Nibble) :
    op &&& ~~~ 0x00F0 = wordOfXNN 0xE (opX op) (y ++ n) &&& ~~~ 0x00F0 :=
  calc op &&& ~~~ 0x00F0 = wordOfNibbles 0xE (opX op) (opY op) n &&& ~~~ 0x00F0 := by rw [← eq_wordOfNibbles hc hn]
    _ = wordOfNibbles 0xE (opX op) 0x0 n := and_clears_opY _ _ _ _
    _ = wordOfNibbles 0xE (opX op) y n &&& ~~~ 0x00F0 := (and_clears_opY _ _ _ _).symm
    _ = wordOfXNN 0xE (opX op) (y ++ n) &&& ~~~ 0x00F0 := by rw [wordOfXNN_append]

theorem spells_of_decodeClassE (hc : opClass op = 0xE) (h : decodeClassE op = .ok i) : Spells op i := by
  unfold decodeClassE at h
  split at h <;> cases h
  case h_1 hn => exact and_clears_opY_of_classE hc hn 0x9
  case h_2 hn => exact and_clears_opY_of_classE hc hn 0xA

theorem spells_of_decodeClassF (hc : opClass op = 0xF) (h : decodeClassF op = .ok i) : Spells op i := by
  unfold decodeClassF at h
  split at h <;> cases h
  all_goals exact spells_of_eq_encode (eq_wordOfXNN hc ‹_›)

/-- A word spells the instruction it decodes to. -/
theorem spells_of_decode (h : decode op = .ok i) : Spells op i := by
  unfold decode at h
  split at h
  case h_1 hc => exact spells_of_decodeClass0 hc h
  case h_6 hc => cases h; exact spells_of_seReg hc
  case h_9 hc => exact spells_of_decodeClass8 hc h
  case h_14 hc => exact spells_of_decodeClassE hc h
  case h_15 hc => exact spells_of_decodeClassF hc h
  -- rows `CNNN`
  case h_2 hc | h_3 hc | h_10 hc | h_11 hc => cases h; exact spells_of_eq_encode (eq_wordOfNNN hc)
  -- rows `CXNN`
  case h_4 hc | h_5 hc | h_7 hc | h_8 hc | h_12 hc => cases h; exact spells_of_eq_encode (eq_wordOfXNN hc rfl)
  -- row `DXYN`
  case h_13 hc => cases h; exact spells_of_eq_encode (eq_wordOfNibbles hc rfl)
  case h_16 => cases h

end Spelling

/-! ### The rows of the opcode map (30_encoding R114) -/

/-- The word has the fixed bits of the instruction's row. -/
def InRow (op : Word) (i : Instr) : Prop := op &&& (rowOf i).1 = (rowOf i).2

open Laws.EncodeRow in
theorem encode_inRow (i : Instr) : InRow (encode i) i := by
  cases i
  exacts [cls, ret, jp _, call _, seImm _ _, sneImm _ _, seReg _ _, ldImm _ _, addImm _ _, ldReg _ _, orReg _ _,
    andReg _ _, xorReg _ _, addReg _ _, subReg _ _, ldI _, jpV0 _, rnd _ _, drw _ _ _, skp _, sknp _, ldVxDT _,
    ldDTVx _, ldSTVx _, addI _, ldF _, ldB _, ldMemVx _, ldVxMem _]

/-- No fixed bit of a row is a don't-care. -/
theorem dontCare_not_fixed (i : Instr) : ~~~ dontCare i &&& (rowOf i).1 = (rowOf i).1 := by
  cases i <;> simp only [dontCare, rowOf] <;> rfl

theorem inRow_of_spells {op : Word} {i : Instr} (h : Spells op i) : InRow op i :=
  calc op &&& (rowOf i).1 = op &&& ~~~ dontCare i &&& (rowOf i).1 := by
        rw [BitVec.and_assoc, dontCare_not_fixed]
    _ = encode i &&& ~~~ dontCare i &&& (rowOf i).1 := by rw [h]
    _ = encode i &&& (rowOf i).1 := by rw [BitVec.and_assoc, dontCare_not_fixed]
    _ = (rowOf i).2 := encode_inRow i

/-- Settles O3: a word spells what it decodes to, and a row has no don't-care bit. -/
theorem decodedWordAgreesWithEncoding : Obligations.DecodedWordAgreesWithEncoding :=
  fun _ _ h => ⟨inRow_of_spells (spells_of_decode h), spells_of_decode h⟩

@[simp] theorem opClass_ofNat (n : Nat) : opClass (BitVec.ofNat 16 n) = BitVec.ofNat 4 (n / 4096) :=
  BitVec.eq_of_toNat_eq (by rw [opClass_toNat, BitVec.toNat_ofNat, BitVec.toNat_ofNat]; omega)

@[simp] theorem opN_ofNat (n : Nat) : opN (BitVec.ofNat 16 n) = BitVec.ofNat 4 n :=
  BitVec.eq_of_toNat_eq (by rw [opN_toNat, BitVec.toNat_ofNat, BitVec.toNat_ofNat]; omega)

@[simp] theorem opNN_ofNat (n : Nat) : opNN (BitVec.ofNat 16 n) = BitVec.ofNat 8 n :=
  BitVec.eq_of_toNat_eq (by rw [opNN_toNat, BitVec.toNat_ofNat, BitVec.toNat_ofNat]; omega)

theorem opClass_and (a b : Word) : opClass (a &&& b) = opClass a &&& opClass b := BitVec.extractLsb'_and

theorem opN_and (a b : Word) : opN (a &&& b) = opN a &&& opN b := BitVec.extractLsb'_and

theorem opNN_and (a b : Word) : opNN (a &&& b) = opNN a &&& opNN b := BitVec.extractLsb'_and

section Masks

variable {op v : Word}

/-- The mask of a row of a class without sub-dispatch keeps the class. -/
theorem fields_of_and_class (h : op &&& 0xF000 = v) : opClass op = opClass v := by
  rw [← h, opClass_and]
  exact BitVec.and_allOnes.symm

/-- The mask of a row of class 8 or E keeps the class and the low nibble. -/
theorem fields_of_and_low_nibble (h : op &&& 0xF00F = v) : opClass op = opClass v ∧ opN op = opN v := by
  rw [← h, opClass_and, opN_and]
  exact ⟨BitVec.and_allOnes.symm, BitVec.and_allOnes.symm⟩

/-- The mask of a row of class 0 or F keeps the class and the low byte. -/
theorem fields_of_and_low_byte (h : op &&& 0xF0FF = v) : opClass op = opClass v ∧ opNN op = opNN v := by
  rw [← h, opClass_and, opNN_and]
  exact ⟨BitVec.and_allOnes.symm, BitVec.and_allOnes.symm⟩

end Masks

/-- A word in a row decodes to an instruction of that row: the row's fixed bits are the fields the decoder tests. -/
theorem decode_of_inRow {op : Word} {i : Instr} (h : InRow op i) : ∃ j, decode op = .ok j ∧ rowOf j = rowOf i := by
  cases i with
  | jp | call | ldI | jpV0 | seImm | sneImm | ldImm | addImm | rnd | seReg | drw =>
    simp [decode, fields_of_and_class h, rowOf]
  | ldReg | orReg | andReg | xorReg | addReg | subReg =>
    simp [decode, decodeClass8, fields_of_and_low_nibble h, rowOf]
  | skp | sknp => simp [decode, decodeClassE, fields_of_and_low_nibble h, rowOf]
  | cls | ret => simp [decode, decodeClass0, fields_of_and_low_byte h, rowOf]
  | ldVxDT | ldDTVx | ldSTVx | addI | ldF | ldB | ldMemVx | ldVxMem =>
    simp [decode, decodeClassF, fields_of_and_low_byte h, rowOf]

/-- Settles O4: a word decodes into its row, and it decodes to one instruction only. -/
theorem oneRowPerDecodedWord : Obligations.OneRowPerDecodedWord := by
  refine ⟨fun op => ⟨?_, ?_⟩, fun op i j hi hj => ?_⟩
  · rintro ⟨i, h⟩
    exact ⟨i, inRow_of_spells (spells_of_decode h)⟩
  · rintro ⟨i, h⟩
    obtain ⟨j, hj, -⟩ := decode_of_inRow h
    exact ⟨j, hj⟩
  · obtain ⟨i', hi', ei⟩ := decode_of_inRow hi
    obtain ⟨j', hj', ej⟩ := decode_of_inRow hj
    have e : i' = j' := Except.ok.inj (hi'.symm.trans hj')
    rw [← ei, e, ej]

/-! ### The unknown words (30_encoding R115) -/

section Unknown

variable (op : Word)

theorem decodeClass0_eq_error_iff :
    decodeClass0 op = .error (.unknownOpcode op) ↔ op.toNat % 256 ∉ [0xE0, 0xEE] := by
  rw [decodeClass0, ← opNN_toNat]
  split <;> simp_all [BitVec.toNat_eq]

theorem decodeClass8_eq_error_iff : decodeClass8 op = .error (.unknownOpcode op) ↔ 0x6 ≤ op.toNat % 16 := by
  rw [decodeClass8, ← opN_toNat]
  split
  case h_7 =>
    simp only [imp_false] at *
    have hn : 6 ≤ (opN op).toNat := by bv_omega
    simp [hn]
  all_goals simp [*]

theorem decodeClassE_eq_error_iff :
    decodeClassE op = .error (.unknownOpcode op) ↔ op.toNat % 16 ∉ [0xE, 0x1] := by
  rw [decodeClassE, ← opN_toNat]
  split <;> simp_all [BitVec.toNat_eq]

theorem decodeClassF_eq_error_iff :
    decodeClassF op = .error (.unknownOpcode op) ↔
      op.toNat % 256 ∉ [0x07, 0x15, 0x18, 0x1E, 0x29, 0x33, 0x55, 0x65] := by
  rw [decodeClassF, ← opNN_toNat]
  split <;> simp_all [BitVec.toNat_eq]

theorem toNat_div_eq_opClass : op.toNat / 4096 = (opClass op).toNat := by
  rw [opClass_toNat]
  omega

end Unknown

/-- Settles O5: the four sub-dispatches reject what the table lists for their class, and 9 is the one class without an
arm in the decoder. -/
theorem unknownWordsAreTheTables : Obligations.UnknownWordsAreTheTables := by
  intro op
  rw [toNat_div_eq_opClass, decode]
  split
  case h_16 =>
    simp only [imp_false] at *
    have hc : opClass op = 0x9 := by bv_omega
    simp [hc]
  all_goals simp [*, decodeClass0_eq_error_iff, decodeClass8_eq_error_iff, decodeClassE_eq_error_iff,
    decodeClassF_eq_error_iff]

/-! ### Words written out from the spec -/

/-- Settles O1: fixed words, decoded by evaluation. -/
theorem handEncodedWordsDecode : Obligations.HandEncodedWordsDecode := by
  unfold Obligations.HandEncodedWordsDecode
  decide

end Sys2Proof

namespace Sys2Proof.Machine

/-! ### The tick (40_cycle R140 to R146) -/

/-- The end of a tick counts one instruction while the machine runs, and none once it is halted (R146). -/
theorem State.retire_icount (s : State) :
    s.retire.icount = if s.run = .running then s.icount + 1 else s.icount := by
  cases hr : s.run with
  | running => rw [s.retire_running hr, if_pos rfl]
  | halted r => rw [s.retire_halted r hr, if_neg (nofun : ¬ RunState.halted r = .running)]

/-- No instruction changes icount, the launch parameters or the plan. -/
theorem exec_keepsHost {i : Instr} {s t : State} (h : exec i s = .next t) : keepsHost s t := by
  obtain ⟨t', ht', -, hk, -⟩ := exec_cases i s
  rw [h] at ht'
  cases ht'
  exact hk

/-- Settles O10: an instruction itself keeps icount, so a tick counts what `State.retire` counts. -/
theorem completedTickCountsOnce : Obligations.CompletedTickCountsOnce := by
  intro s t h
  rcases tick_cases s with ⟨r, hr, e⟩ | ⟨-, r, -, e⟩ | ⟨hr, op, i, u, -, -, hu, e⟩ <;> rw [h] at e <;> cases e
  · simp [hr]
  · simp
  · obtain ⟨-, -, -, hcount⟩ := exec_keepsHost hu
    simp [State.retire_icount, hcount, hr]

/-- With nothing planned, a step is a tick. -/
theorem step_of_plan_nil {s : State} (h : s.hostPlan = []) : step s = s.tick := by
  rw [step_eq_takeAction, planTaken_of_nil h, h]
  rfl

/-- A planned tick is a tick once it has left the plan. -/
theorem step_of_plan_tick {s : State} {rest : List HostAction} (h : s.hostPlan = .tick :: rest) :
    step s = State.tick { s with hostPlan := rest } := by
  rw [step_eq_takeAction, State.planTaken, h]
  rfl

/-- A running machine whose word at pc can be fetched and decoded executes it and counts (R140, R142). -/
theorem tick_of_decode_wordAt {s : State} {i : Instr} (hr : s.run = .running) (hf : s.canFetch s.pc.toNat = true)
    (hd : decode (s.wordAt s.pc.toNat) = .ok i) : s.tick = retireResult (exec i s) :=
  tick_of_decode_ok hr (fetch_of_canFetch hf) hd

/-- Settles O6: the step is a tick, with the plan's rest in place, and neither fetch nor decode looks at the plan. -/
theorem stepRunsDecodedInstruction : Obligations.StepRunsDecodedInstruction := by
  intro s i rest hr hf hd
  constructor
  · intro hp
    rw [step_of_plan_nil hp]
    exact tick_of_decode_wordAt hr hf hd
  · intro hp
    rw [step_of_plan_tick hp]
    exact tick_of_decode_wordAt (s := { s with hostPlan := rest }) hr hf hd

/-- Settles O7: the step is a tick, and a tick in Halted answers its own state. -/
theorem haltedTickChangesNothing : Obligations.HaltedTickChangesNothing := by
  intro s r rest hr
  refine ⟨tick_of_halted hr, fun hp => ?_, fun hp => ?_⟩
  · rw [step_of_plan_nil hp]
    exact tick_of_halted hr
  · rw [step_of_plan_tick hp]
    exact tick_of_halted (s := { s with hostPlan := rest }) hr

theorem fetch_of_unmapped {s : State} (ho : ownerOf s.map s.pc.toNat = none) : s.fetch = .error .unmapped := by
  rw [State.fetch_eq, ho]

theorem fetch_of_straddle {s : State} {r : Mapping} (ho : ownerOf s.map s.pc.toNat = some r)
    (hend : r.base + r.size < s.pc.toNat + 2) : s.fetch = .error .straddle := by
  simp only [State.fetch_eq, ho, if_pos hend]

/-- Settles O8: the owner of pc decides what the fetch answers, and a fetch that faults halts the tick. -/
theorem fetchReadsTwoBytesOrHalts : Obligations.FetchReadsTwoBytesOrHalts := by
  intro s
  refine ⟨fetch_of_canFetch, ?_⟩
  rintro k (⟨rfl, ho⟩ | ⟨rfl, r, ho, hend⟩) hr
  · exact tick_of_fetch_error hr (fetch_of_unmapped ho)
  · exact tick_of_fetch_error hr (fetch_of_straddle ho hend)

/-- Settles O9: a word that decodes to no instruction is rejected by the decoder, and that halts the tick. -/
theorem unknownOpcodeHalts : Obligations.UnknownOpcodeHalts := by
  intro s op hr hf hunknown
  cases hd : decode op with
  | ok i => exact absurd hd (hunknown i)
  | error e => exact tick_of_decode_error hr hf hd

end Sys2Proof.Machine

namespace Sys2Proof

/-! ### The words of classes 0, 1 and 2 (30_encoding R113) -/

section Classes0To2

variable {op : Word}

theorem decode_of_cls (hc : opClass op = 0x0) (hnn : opNN op = 0xE0) : decode op = .ok .cls := by
  simp [decode, decodeClass0, hc, hnn]

theorem decode_of_ret (hc : opClass op = 0x0) (hnn : opNN op = 0xEE) : decode op = .ok .ret := by
  simp [decode, decodeClass0, hc, hnn]

theorem decode_of_jp (hc : opClass op = 0x1) : decode op = .ok (.jp (opNNN op)) := by
  simp [decode, hc]

theorem decode_of_call (hc : opClass op = 0x2) : decode op = .ok (.call (opNNN op)) := by
  simp [decode, hc]

end Classes0To2

end Sys2Proof

namespace Sys2Proof.Machine

/-! ### Classes 0, 1 and 2: system, jump, call (41_class0_2 R160 to R163) -/

/-- Widening NNN to the program counter's width loses nothing (30_encoding R112). -/
@[simp] theorem jumpTarget_toNat (nnn : Addr) : (jumpTarget nnn).toNat = nnn.toNat :=
  BitVec.toNat_setWidth_of_le (by decide)

theorem exec_jp (nnn : Addr) (s : State) : exec (.jp nnn) s = .next (s.setPc (jumpTarget nnn)) := rfl

theorem exec_ret (s : State) : exec .ret s = execRet s := rfl

theorem exec_call (nnn : Addr) (s : State) : exec (.call nnn) s = execCall nnn s := rfl

/-- Settles O15: the arm of CLS emits `Clear` and advances. -/
theorem clsEmitsClear : Obligations.ClsEmitsClear :=
  ⟨fun _ => decode_of_cls, fun _ => rfl⟩

/-- Settles O17: JP writes pc alone, and the widened NNN is NNN. -/
theorem jumpSetsPc : Obligations.JumpSetsPc :=
  ⟨fun _ => decode_of_jp, fun s nnn => ⟨_, exec_jp nnn s, rfl, jumpTarget_toNat nnn⟩⟩

/-- Settles O16: by whether the stack holds an entry; where it does, RET reads the topmost one. -/
theorem retPopsAndResumes : Obligations.RetPopsAndResumes := by
  refine ⟨fun _ => decode_of_ret, fun s => ⟨fun hsp => ?_, fun hsp => ?_⟩⟩
  · refine ⟨_, (exec_ret s).trans (execRet_of_pos hsp), rfl, Nat.sub_add_cancel hsp, fun k _ hk => ?_⟩
    have top : s.sp.val - 1 = k := by omega
    simp only [State.setPc_pc, top]
  · exact (exec_ret s).trans (execRet_of_zero hsp)

/-- Settles O18: by whether the stack has a free entry; where it does, CALL writes the first one. -/
theorem callPushesOwnAddress : Obligations.CallPushesOwnAddress := by
  refine ⟨fun _ => decode_of_call, fun s nnn => ⟨fun hsp => ?_, fun hsp => ?_⟩⟩
  · refine ⟨_, (exec_call nnn s).trans (execCall_of_lt nnn hsp), rfl, jumpTarget_toNat nnn, rfl, fun k hk => ?_⟩
    simp only [State.setPc_stack, Vector.getElem_set, eq_comm]
  · exact (exec_call nnn s).trans (execCall_of_full nnn hsp)

/-- RET undoes the push of an address `a`, wherever pc has gone in between: it resumes after `a`, with the entry that
was written still in the stack. -/
theorem execRet_of_pushed (s : State) (a pc : Word) (h : s.sp.val < 16) :
    execRet (State.setPc { s with stack := s.stack.set s.sp.val a h, sp := ⟨s.sp.val + 1, by omega⟩ } pc) =
      .next { s with pc := a + 2, stack := s.stack.set s.sp.val a h } := by
  rw [execRet_of_pos (Nat.succ_pos _)]
  have top : (s.stack.set s.sp.val a h)[s.sp.val] = a := Vector.getElem_set_self h
  simp [State.setPc, top]

/-- Settles O19: CALL pushes its own address, RET pops it, and no other entry is touched. -/
theorem returnResumesAfterCall : Obligations.ReturnResumesAfterCall := by
  intro s nnn hsp
  refine ⟨_, _, (exec_call nnn s).trans (execCall_of_lt nnn hsp),
    (exec_ret _).trans (execRet_of_pushed s s.pc (jumpTarget nnn) hsp), rfl, fun k hk hne => ?_⟩
  exact Vector.getElem_set_ne hsp hk hne.symm

/-- The word `0x1000 + a` is JP to `a`. -/
theorem decode_of_jump_word {op a : Word} (ha : a.toNat < 0x1000) (h : op.toNat = 0x1000 + a.toNat) :
    ∃ nnn, decode op = .ok (.jp nnn) ∧ jumpTarget nnn = a := by
  have hc : opClass op = 0x1 := BitVec.eq_of_toNat_eq <| by
    rw [opClass_toNat, h]
    show _ = 1
    omega
  refine ⟨opNNN op, decode_of_jp hc, BitVec.eq_of_toNat_eq ?_⟩
  rw [jumpTarget_toNat, opNNN_toNat, h]
  omega

/-- Settles O14: the step is a tick that jumps to where pc is, and the tick counts. -/
theorem selfJumpOnlyCounts : Obligations.SelfJumpOnlyCounts := by
  intro s hr hp hf hpc hw
  obtain ⟨nnn, hd, htarget⟩ := decode_of_jump_word hpc hw
  calc step s = s.tick := step_of_plan_nil hp
    _ = retireResult (exec (.jp nnn) s) := tick_of_decode_wordAt hr hf hd
    _ = .next s.retire := by rw [exec_jp, htarget]; rfl
    _ = .next { s with icount := s.icount + 1 } := by rw [s.retire_running hr]

end Sys2Proof.Machine

namespace Sys2Proof

/-! ### The words of classes 3 to 7 (30_encoding R113) -/

section Classes3To7

variable {op : Word}

theorem decode_of_seImm (hc : opClass op = 0x3) : decode op = .ok (.seImm (opX op) (opNN op)) := by
  simp [decode, hc]

theorem decode_of_sneImm (hc : opClass op = 0x4) : decode op = .ok (.sneImm (opX op) (opNN op)) := by
  simp [decode, hc]

theorem decode_of_seReg (hc : opClass op = 0x5) : decode op = .ok (.seReg (opX op) (opY op)) := by
  simp [decode, hc]

theorem decode_of_ldImm (hc : opClass op = 0x6) : decode op = .ok (.ldImm (opX op) (opNN op)) := by
  simp [decode, hc]

theorem decode_of_addImm (hc : opClass op = 0x7) : decode op = .ok (.addImm (opX op) (opNN op)) := by
  simp [decode, hc]

end Classes3To7

end Sys2Proof

namespace Sys2Proof.Machine

/-! ### Classes 3 to 7: skips, load and add immediate (42_class3_7 R180 to R184) -/

section Immediate

variable (s : State) (x y : Nibble) (nn : Byte)

theorem exec_seImm : exec (.seImm x nn) s = .next (s.skipIf (s.getV x == nn)) := rfl

theorem exec_sneImm : exec (.sneImm x nn) s = .next (s.skipIf (s.getV x != nn)) := rfl

theorem exec_seReg : exec (.seReg x y) s = .next (s.skipIf (s.getV x == s.getV y)) := rfl

theorem exec_ldImm : exec (.ldImm x nn) s = .next (s.setV x nn).next := rfl

theorem exec_addImm : exec (.addImm x nn) s = .next (s.setV x (s.getV x + nn)).next := rfl

/-- A skip writes pc alone: past the next word or up to it (40_cycle R145). -/
theorem State.skipIf_eq (c : Bool) : s.skipIf c = { s with pc := if c then s.pc + 4 else s.pc + 2 } := by
  cases c <;> rfl

/-- One register written, then the advance: no other element changes. -/
theorem onlyRegsAdvanced_setV_next (b : Byte) : onlyRegsAdvanced s (s.setV x b).next := rfl

/-- The registers after one is written and pc has advanced. -/
theorem State.getV_setV_next (b : Byte) : (s.setV x b).next.getV y = if y = x then b else s.getV y :=
  s.getV_setV x y b

end Immediate

/-- Settles O20: the condition of the skip is the comparison of V[X] with NN. -/
theorem immediateSkipsCompareRegister : Obligations.ImmediateSkipsCompareRegister := by
  refine ⟨fun _ => decode_of_seImm, fun _ => decode_of_sneImm, fun s x nn => ⟨?_, ?_⟩⟩
  · simp only [exec_seImm, State.skipIf_eq, beq_iff_eq]
  · simp only [exec_sneImm, State.skipIf_eq, bne_iff_ne]

/-- Settles O21: the condition of the skip is the comparison of V[X] with V[Y], which holds when X = Y. -/
theorem registerSkipComparesRegisters : Obligations.RegisterSkipComparesRegisters := by
  refine ⟨fun _ => decode_of_seReg, fun s x y => ⟨?_, ?_⟩⟩
  · simp only [exec_seReg, State.skipIf_eq, beq_iff_eq]
  · simp only [exec_seReg, State.skipIf_eq, beq_self_eq_true, if_true]

/-- Settles O22: the write of V[X] is the only change of the register file, and NN is what it writes. -/
theorem loadImmediateWritesRegister : Obligations.LoadImmediateWritesRegister :=
  ⟨fun _ => decode_of_ldImm, fun s x nn => ⟨_, exec_ldImm s x nn, onlyRegsAdvanced_setV_next s x nn,
    fun y => s.getV_setV_next x y nn⟩⟩

/-- Settles O23: the byte written to V[X] is a sum of bytes, which wraps; no flag is written beside it. -/
theorem addImmediateWrapsWithoutFlag : Obligations.AddImmediateWrapsWithoutFlag := by
  refine ⟨fun _ => decode_of_addImm, fun s x nn =>
    ⟨_, exec_addImm s x nn, onlyRegsAdvanced_setV_next s x _, ?_, fun y hy => ?_⟩⟩
  · rw [State.getV_setV_next, if_pos rfl, BitVec.toNat_add]
  · rw [State.getV_setV_next, if_neg hy]

end Sys2Proof.Machine

namespace Sys2Proof

/-! ### The words of class 8 (30_encoding R113) -/

section Class8

variable {op : Word} (hc : opClass op = 0x8)

include hc

theorem decode_of_class8 : decode op = decodeClass8 op := by
  simp [decode, hc]

theorem decode_of_ldReg (hn : opN op = 0x0) : decode op = .ok (.ldReg (opX op) (opY op)) := by
  simp [decode_of_class8 hc, decodeClass8, hn]

theorem decode_of_orReg (hn : opN op = 0x1) : decode op = .ok (.orReg (opX op) (opY op)) := by
  simp [decode_of_class8 hc, decodeClass8, hn]

theorem decode_of_andReg (hn : opN op = 0x2) : decode op = .ok (.andReg (opX op) (opY op)) := by
  simp [decode_of_class8 hc, decodeClass8, hn]

theorem decode_of_xorReg (hn : opN op = 0x3) : decode op = .ok (.xorReg (opX op) (opY op)) := by
  simp [decode_of_class8 hc, decodeClass8, hn]

theorem decode_of_addReg (hn : opN op = 0x4) : decode op = .ok (.addReg (opX op) (opY op)) := by
  simp [decode_of_class8 hc, decodeClass8, hn]

theorem decode_of_subReg (hn : opN op = 0x5) : decode op = .ok (.subReg (opX op) (opY op)) := by
  simp [decode_of_class8 hc, decodeClass8, hn]

end Class8

end Sys2Proof

namespace Sys2Proof.Machine

/-! ### Class 8: register-register arithmetic and logic (43_alu R200 to R206) -/

section Alu

variable (s : State) (x y z : Nibble) (b : Byte)

theorem exec_ldReg : exec (.ldReg x y) s = .next (s.setV x (s.getV y)).next := rfl

theorem exec_orReg : exec (.orReg x y) s = .next (s.setV x (s.getV x ||| s.getV y)).next := rfl

theorem exec_andReg : exec (.andReg x y) s = .next (s.setV x (s.getV x &&& s.getV y)).next := rfl

theorem exec_xorReg : exec (.xorReg x y) s = .next (s.setV x (s.getV x ^^^ s.getV y)).next := rfl

theorem exec_addReg : exec (.addReg x y) s =
    .next (s.setWithFlag x (s.getV x + s.getV y) (addCarry (s.getV x) (s.getV y))).next := rfl

theorem exec_subReg : exec (.subReg x y) s =
    .next (s.setWithFlag x (s.getV x - s.getV y) (subNotBorrow (s.getV x) (s.getV y))).next := rfl

theorem State.getV_setV_next_same : (s.setV x b).next.getV x = b := s.getV_setV_same x b

theorem State.getV_setV_next_ne {x z : Nibble} (hz : z ≠ x) : (s.setV x b).next.getV z = s.getV z :=
  s.getV_setV_ne x z b hz

/-- A register and VF written, then the advance: no other element changes. -/
theorem onlyRegsAdvanced_setWithFlag_next (c : Bool) : onlyRegsAdvanced s (s.setWithFlag x b c).next := rfl

/-- The registers after a result and its flag are written and pc has advanced: the flag is what VF holds (R200). -/
theorem State.getV_setWithFlag_next (c : Bool) : (s.setWithFlag x b c).next.getV z =
    if z = flagReg then flagByte c else if z = x then b else s.getV z :=
  s.getV_setWithFlag x z b c

theorem State.getV_setWithFlag_next_result {x : Nibble} (hx : x ≠ flagReg) (c : Bool) :
    (s.setWithFlag x b c).next.getV x = b := by
  rw [State.getV_setWithFlag_next, if_neg hx, if_pos rfl]

theorem State.getV_setWithFlag_next_flag (c : Bool) : (s.setWithFlag x b c).next.getV flagReg = flagByte c := by
  rw [State.getV_setWithFlag_next, if_pos rfl]

theorem State.getV_setWithFlag_next_ne {x z : Nibble} (hx : z ≠ x) (hf : z ≠ flagReg) (c : Bool) :
    (s.setWithFlag x b c).next.getV z = s.getV z := by
  rw [State.getV_setWithFlag_next, if_neg hf, if_neg hx]

end Alu

/-- A flag is 1 exactly when its condition holds, else 0. -/
theorem flagByte_decide_toNat (p : Prop) [Decidable p] : (flagByte (decide p)).toNat = if p then 1 else 0 := by
  by_cases hp : p <;> simp [flagByte, hp]

/-- A difference of bytes is the integers' difference modulo 256 (R206). -/
theorem byte_sub_toNat (a b : Byte) : ((a - b).toNat : Int) = ((a.toNat : Int) - (b.toNat : Int)) % 256 := by
  rw [BitVec.toNat_sub]
  omega

/-- Settles O24: each form writes V[X] alone, and the byte written is given bit by bit. -/
theorem assignAndLogicWriteOneRegister : Obligations.AssignAndLogicWriteOneRegister := by
  refine ⟨fun _ => decode_of_ldReg, fun _ => decode_of_orReg, fun _ => decode_of_andReg, fun _ => decode_of_xorReg,
    fun s x y => ⟨_, _, _, _,
      ⟨exec_ldReg s x y, onlyRegsAdvanced_setV_next s x _, s.getV_setV_next_same x _⟩,
      ⟨exec_orReg s x y, onlyRegsAdvanced_setV_next s x _, fun k _ => ?_⟩,
      ⟨exec_andReg s x y, onlyRegsAdvanced_setV_next s x _, fun k _ => ?_⟩,
      ⟨exec_xorReg s x y, onlyRegsAdvanced_setV_next s x _, fun k _ => ?_⟩,
      fun z hz => ⟨s.getV_setV_next_ne _ hz, s.getV_setV_next_ne _ hz, s.getV_setV_next_ne _ hz,
        s.getV_setV_next_ne _ hz⟩⟩⟩
  · rw [State.getV_setV_next_same, BitVec.getLsbD_or]
  · rw [State.getV_setV_next_same, BitVec.getLsbD_and]
  · rw [State.getV_setV_next_same, BitVec.getLsbD_xor]

/-- Settles O25: V[X] gets the wrapped sum, then VF the carry; both are computed from the old values. -/
theorem addSetsCarry : Obligations.AddSetsCarry := by
  refine ⟨fun _ => decode_of_addReg, fun s x y => ⟨_, exec_addReg s x y, onlyRegsAdvanced_setWithFlag_next s x _ _,
    fun hx => ?_, ?_, fun z hx hf => s.getV_setWithFlag_next_ne _ hx hf _⟩⟩
  · rw [s.getV_setWithFlag_next_result _ hx, BitVec.toNat_add]
  · exact (congrArg BitVec.toNat (s.getV_setWithFlag_next_flag x _ _)).trans (flagByte_decide_toNat _)

/-- Settles O26: V[X] gets the wrapped difference, then VF the not-borrow; both are computed from the old values. -/
theorem subSetsNotBorrow : Obligations.SubSetsNotBorrow := by
  refine ⟨fun _ => decode_of_subReg, fun s x y => ⟨_, exec_subReg s x y, onlyRegsAdvanced_setWithFlag_next s x _ _,
    fun hx => ?_, ?_, fun z hx hf => s.getV_setWithFlag_next_ne _ hx hf _⟩⟩
  · rw [s.getV_setWithFlag_next_result _ hx, byte_sub_toNat]
  · exact (congrArg BitVec.toNat (s.getV_setWithFlag_next_flag x _ _)).trans (flagByte_decide_toNat _)

end Sys2Proof.Machine

namespace Sys2Proof

/-! ### The words of classes A to D (30_encoding R113) -/

section ClassesAToD

variable {op : Word}

theorem decode_of_ldI (hc : opClass op = 0xA) : decode op = .ok (.ldI (opNNN op)) := by
  simp [decode, hc]

theorem decode_of_jpV0 (hc : opClass op = 0xB) : decode op = .ok (.jpV0 (opNNN op)) := by
  simp [decode, hc]

theorem decode_of_rnd (hc : opClass op = 0xC) : decode op = .ok (.rnd (opX op) (opNN op)) := by
  simp [decode, hc]

theorem decode_of_drw (hc : opClass op = 0xD) : decode op = .ok (.drw (opX op) (opY op) (opN op)) := by
  simp [decode, hc]

end ClassesAToD

end Sys2Proof

namespace Sys2Proof.Machine

/-! ### Classes A to D: index, offset jump, random, draw (44_classA_D R220 to R223) -/

section IndexJumpRandomDraw

variable (s : State) (x y n : Nibble) (nn : Byte) (nnn : Addr)

theorem exec_ldI : exec (.ldI nnn) s = .next (s.setI nnn).next := rfl

theorem exec_jpV0 : exec (.jpV0 nnn) s = .next (s.setPc (offsetTarget nnn (s.getV 0))) := rfl

theorem exec_rnd : exec (.rnd x nn) s = .next (s.drawn.setV x (Config.randomByte s.draws &&& nn)).next := rfl

theorem exec_drw : exec (.drw x y n) s = .next (s.emit (.draw (s.getV x) (s.getV y) n s.i)).next := rfl

theorem State.setI_next : (s.setI nnn).next = { s with i := nnn, pc := s.pc + 2 } := rfl

theorem State.emit_next (e : Event) : (s.emit e).next = { s with trace := s.trace ++ [e], pc := s.pc + 2 } := rfl

/-- A draw taken does not change what a register holds. -/
theorem State.getV_drawn : s.drawn.getV y = s.getV y := s.getV_congr s.drawn y rfl

end IndexJumpRandomDraw

/-- The sum of a 12-bit address and a byte fits the program counter, so it does not wrap (R221). -/
theorem offsetTarget_toNat (nnn : Addr) (b : Byte) : (offsetTarget nnn b).toNat = nnn.toNat + b.toNat := by
  have hnnn : (nnn.setWidth 16).toNat = nnn.toNat := jumpTarget_toNat nnn
  have hb : (b.setWidth 16).toNat = b.toNat := BitVec.toNat_setWidth_of_le (by decide)
  have hfits : (nnn.setWidth 16).toNat + (b.setWidth 16).toNat < 2 ^ 16 := by omega
  rw [offsetTarget, BitVec.toNat_add_of_lt hfits, hnnn, hb]

/-- Settles O27: the arm of LD I writes NNN to I and advances. -/
theorem loadIndexWritesI : Obligations.LoadIndexWritesI :=
  ⟨fun _ => decode_of_ldI, fun s nnn => (exec_ldI s nnn).trans (congrArg _ (s.setI_next nnn))⟩

/-- Settles O28: JP V0 writes pc alone, and the sum written does not wrap. -/
theorem offsetJumpAddsV0 : Obligations.OffsetJumpAddsV0 :=
  ⟨fun _ => decode_of_jpV0, fun s nnn => ⟨_, exec_jpV0 s nnn, rfl, offsetTarget_toNat nnn (s.getV 0)⟩⟩

/-- Settles O29: V[X] alone is written, after one draw, and what it gets is the drawn byte under the mask NN. -/
theorem randomByteIsMasked : Obligations.RandomByteIsMasked := by
  refine ⟨fun _ => decode_of_rnd, fun s x nn => ?_⟩
  have hx := s.drawn.getV_setV_next_same x (Config.randomByte s.draws &&& nn)
  refine ⟨_, exec_rnd s x nn, rfl, hx, fun k hk => ?_, fun y hy => ?_⟩
  · rw [hx, BitVec.getLsbD_and, hk, Bool.and_false]
  · rw [State.getV_setV_next_ne _ _ hy, State.getV_drawn]

/-- Settles O30: the arm of DRW emits the one event and advances. -/
theorem drawEmitsOneEvent : Obligations.DrawEmitsOneEvent :=
  ⟨fun _ => decode_of_drw, fun s x y n => (exec_drw s x y n).trans (congrArg _ (s.emit_next _))⟩

end Sys2Proof.Machine

namespace Sys2Proof

/-! ### The words of class E (30_encoding R113) -/

section ClassE

variable {op : Word} (hc : opClass op = 0xE)

include hc

theorem decode_of_classE : decode op = decodeClassE op := by
  simp [decode, hc]

theorem decode_of_skp (hn : opN op = 0xE) : decode op = .ok (.skp (opX op)) := by
  simp [decode_of_classE hc, decodeClassE, hn]

theorem decode_of_sknp (hn : opN op = 0x1) : decode op = .ok (.sknp (opX op)) := by
  simp [decode_of_classE hc, decodeClassE, hn]

end ClassE

end Sys2Proof

namespace Sys2Proof.Machine

/-! ### Class E: key tests (45_key R240 to R242) -/

section Key

variable (s : State) (x : Nibble)

theorem exec_skp : exec (.skp x) s = .next ((s.queryKey (keyName (s.getV x))).skipIf s.keyAnswer) := rfl

theorem exec_sknp : exec (.sknp x) s = .next ((s.queryKey (keyName (s.getV x))).skipIf (!s.keyAnswer)) := rfl

/-- A key query, then a skip or not: beside pc, only the counter of free values and the trace change. -/
theorem State.queryKey_skipIf (name : String) (c : Bool) :
    (s.queryKey name).skipIf c = { s with
      pc := if c then s.pc + 4 else s.pc + 2
      draws := s.draws + 1
      trace := s.trace ++ [.keyQuery name s.keyAnswer] } :=
  (s.queryKey name).skipIf_eq c

end Key

/-- Settles O31: SKP skips by the answer to the one query, SKNP by its negation. -/
theorem keySkipsFollowTheAnswer : Obligations.KeySkipsFollowTheAnswer := by
  refine ⟨fun _ => decode_of_skp, fun _ => decode_of_sknp, fun s x => ⟨s.keyAnswer, rfl, ?_, ?_⟩⟩
  · rw [exec_skp, State.queryKey_skipIf]
  · rw [exec_sknp, State.queryKey_skipIf]
    cases s.keyAnswer <;> rfl

/-- The model's digit is the library's in upper case. -/
theorem hexDigit_eq_toUpper_digitChar (n : Nat) : hexDigit n = (Nat.digitChar (n % 16)).toUpper := by
  have digits : ∀ d < 16, hexDigit d = (Nat.digitChar d).toUpper := by decide
  have hn : hexDigit n = hexDigit (n % 16) := by rw [hexDigit, hexDigit, Nat.mod_mod]
  rw [hn, digits _ (Nat.mod_lt n (by decide))]

theorem keyName_toList_of_lt {v : Byte} (h : v.toNat < 16) : (keyName v).toList = [hexDigit v.toNat] := by
  rw [keyName, if_pos h, hexText, String.toList_ofList]
  rfl

theorem keyName_toList_of_ge {v : Byte} (h : 16 ≤ v.toNat) :
    (keyName v).toList = [hexDigit (v.toNat / 16), hexDigit v.toNat] := by
  rw [keyName, if_neg h.not_gt, hexText, String.toList_ofList]
  rfl

/-- Settles O32: by whether the value is one hexadecimal digit; a larger byte is two, the first not zero. -/
theorem keyNameIsUppercaseHex : Obligations.KeyNameIsUppercaseHex := by
  intro v
  have hhigh : v.toNat / 16 < 16 := by omega
  rcases lt_or_ge v.toNat 16 with h | h
  · rw [keyName_toList_of_lt h, Nat.toDigits_of_lt_base h, hexDigit_eq_toUpper_digitChar, Nat.mod_eq_of_lt h]
    rfl
  · rw [keyName_toList_of_ge h, Nat.toDigits_of_base_le (by decide) h, Nat.toDigits_of_lt_base hhigh,
      hexDigit_eq_toUpper_digitChar, hexDigit_eq_toUpper_digitChar, Nat.mod_eq_of_lt hhigh]
    rfl

end Sys2Proof.Machine

namespace Sys2Proof

/-! ### The words of class F (30_encoding R113) -/

section ClassF

variable {op : Word} (hc : opClass op = 0xF)

include hc

theorem decode_of_classF : decode op = decodeClassF op := by
  simp [decode, hc]

theorem decode_of_ldVxDT (hnn : opNN op = 0x07) : decode op = .ok (.ldVxDT (opX op)) := by
  simp [decode_of_classF hc, decodeClassF, hnn]

theorem decode_of_ldDTVx (hnn : opNN op = 0x15) : decode op = .ok (.ldDTVx (opX op)) := by
  simp [decode_of_classF hc, decodeClassF, hnn]

theorem decode_of_ldSTVx (hnn : opNN op = 0x18) : decode op = .ok (.ldSTVx (opX op)) := by
  simp [decode_of_classF hc, decodeClassF, hnn]

theorem decode_of_addI (hnn : opNN op = 0x1E) : decode op = .ok (.addI (opX op)) := by
  simp [decode_of_classF hc, decodeClassF, hnn]

theorem decode_of_ldF (hnn : opNN op = 0x29) : decode op = .ok (.ldF (opX op)) := by
  simp [decode_of_classF hc, decodeClassF, hnn]

theorem decode_of_ldB (hnn : opNN op = 0x33) : decode op = .ok (.ldB (opX op)) := by
  simp [decode_of_classF hc, decodeClassF, hnn]

theorem decode_of_ldMemVx (hnn : opNN op = 0x55) : decode op = .ok (.ldMemVx (opX op)) := by
  simp [decode_of_classF hc, decodeClassF, hnn]

theorem decode_of_ldVxMem (hnn : opNN op = 0x65) : decode op = .ok (.ldVxMem (opX op)) := by
  simp [decode_of_classF hc, decodeClassF, hnn]

end ClassF

end Sys2Proof

namespace Sys2Proof.Machine

/-! ### Class F: timers and index arithmetic (46_misc R250 to R254) -/

section TimersIndex

variable (s : State) (x : Nibble)

theorem exec_ldVxDT : exec (.ldVxDT x) s = .next (s.setV x s.dt).next := rfl

theorem exec_ldDTVx : exec (.ldDTVx x) s = .next (s.setDT (s.getV x)).next := rfl

theorem exec_ldSTVx : exec (.ldSTVx x) s = .next (s.setST (s.getV x)).next := rfl

theorem exec_addI : exec (.addI x) s = .next (s.setI (indexSum s.i (s.getV x))).next := rfl

theorem exec_ldF : exec (.ldF x) s = .next (s.setI (glyphAddr (s.getV x))).next := rfl

theorem State.setDT_next (b : Byte) : (s.setDT b).next = { s with dt := b, pc := s.pc + 2 } := rfl

theorem State.setST_next (b : Byte) : (s.setST b).next = { s with st := b, pc := s.pc + 2 } := rfl

end TimersIndex

theorem indexSum_toNat (i : Addr) (v : Byte) : (indexSum i v).toNat = (i.toNat + v.toNat) % 4096 := by
  have hv : (v.setWidth 12).toNat = v.toNat := BitVec.toNat_setWidth_of_le (by decide)
  rw [indexSum, BitVec.toNat_add, hv]

/-- The largest glyph address, 255 times 5, is below 4096, so the mask of R254 drops nothing. -/
theorem glyphAddr_toNat (v : Byte) : (glyphAddr v).toNat = v.toNat * 5 := by
  have hv : v.toNat < 256 := v.isLt
  rw [glyphAddr, fontBase, glyphHeight, BitVec.toNat_ofNat, Nat.zero_add, Nat.mod_eq_of_lt (by omega)]

/-- Settles O33: each of the three writes one element and advances. -/
theorem timerMovesCopyOneByte : Obligations.TimerMovesCopyOneByte :=
  ⟨fun _ => decode_of_ldVxDT, fun _ => decode_of_ldDTVx, fun _ => decode_of_ldSTVx, fun s x =>
    ⟨⟨_, exec_ldVxDT s x, onlyRegsAdvanced_setV_next s x _, fun y => s.getV_setV_next x y _⟩,
      (exec_ldDTVx s x).trans (congrArg _ (s.setDT_next _)),
      (exec_ldSTVx s x).trans (congrArg _ (s.setST_next _))⟩⟩

/-- Settles O34: both write I alone; the sum wraps at its 12 bits, the glyph address never reaches them. -/
theorem indexArithmeticWraps : Obligations.IndexArithmeticWraps :=
  ⟨fun _ => decode_of_addI, fun _ => decode_of_ldF, fun s x => ⟨_, _,
    ⟨exec_addI s x, s.setI_next _, indexSum_toNat s.i (s.getV x)⟩,
    ⟨exec_ldF s x, s.setI_next _, glyphAddr_toNat (s.getV x)⟩⟩⟩

/-! ### Class F: block stores and block loads (46_misc R255 to R257) -/

/-- The first index at which a test fails is unique. -/
theorem first_false_unique {p : Nat → Bool} {j k : Nat} (hj : ∀ i < j, p i = true) (hpj : p j = false)
    (hk : ∀ i < k, p i = true) (hpk : p k = false) : j = k := by
  rcases lt_trichotomy j k with h | h | h
  · simp [hk j h] at hpj
  · exact h
  · simp [hj k h] at hpk

section Runs

variable {s : State} {a k n : Nat}

/-- A block store whose bytes can all be written changes memory alone and advances. -/
theorem complete_storeRun_of_canWrite (f : Nat → Byte) (h : ∀ j < n, s.canWrite (a + j) = true) :
    State.complete (s.storeRun a f n) =
      .next { s with mem := Memory.writeRun s.mem a f n, pc := s.pc + 2 } :=
  congrArg State.complete (storeRun_of_canWrite f h)

/-- A block store halts at its first byte that cannot be written, with the bytes before it written (decision D21). -/
theorem complete_storeRun_of_fault (f : Nat → Byte) (hkn : k < n) (hw : ∀ j < k, s.canWrite (a + j) = true)
    (hf : s.canWrite (a + k) = false) :
    State.complete (s.storeRun a f n) =
      .next { s.halt (.busFault (s.writeFault (a + k)) .write (a + k) 1 s.pc) with
        mem := Memory.writeRun s.mem a f k } := by
  rcases s.storeRun_cases a f n with ⟨hall, -⟩ | ⟨j, -, hjw, hjf, e⟩
  · simp [hall k hkn] at hf
  · obtain rfl : j = k := first_false_unique (p := fun i => s.canWrite (a + i)) hjw hjf hw hf
    exact congrArg State.complete e

/-- A block load whose bytes can all be read loads them all and advances. -/
theorem complete_loadRun_of_canRead (h : ∀ j < n, s.canRead (a + j) = true) :
    State.complete (s.loadRun a n) = .next (s.loadedRun a n).next := by
  rcases s.loadRun_cases a n with ⟨-, e⟩ | ⟨j, hj, -, hjf, -⟩
  · exact congrArg State.complete e
  · simp [h j hj] at hjf

/-- A block load halts at its first byte that cannot be read, with the registers before it loaded (decision D21). -/
theorem complete_loadRun_of_fault (hkn : k < n) (hr : ∀ j < k, s.canRead (a + j) = true)
    (hf : s.canRead (a + k) = false) :
    State.complete (s.loadRun a n) =
      .next ((s.loadedRun a k).halt (.busFault .unmapped .read (a + k) 1 s.pc)) := by
  rcases s.loadRun_cases a n with ⟨hall, -⟩ | ⟨j, -, hjr, hjf, e⟩
  · simp [hall k hkn] at hf
  · obtain rfl : j = k := first_false_unique (p := fun i => s.canRead (a + i)) hjr hjf hr hf
    exact congrArg State.complete e

theorem Memory.read_writeRun_inside (m : Memory) (f : Nat → Byte) (h : k < n) :
    Memory.read (Memory.writeRun m a f n) (a + k) = f k := by
  rw [Memory.read_writeRun, if_pos (by omega), Nat.add_sub_cancel_left]

theorem Memory.read_writeRun_outside (m : Memory) (f : Nat → Byte) {x : Nat} (h : x < a ∨ a + n ≤ x) :
    Memory.read (Memory.writeRun m a f n) x = Memory.read m x := by
  rw [Memory.read_writeRun, if_neg (by omega)]

/-- A block store of registers reads back as the registers stored so far. -/
theorem read_writeRun_regAt {y : Nibble} (h : y.toNat < n) :
    Memory.read (Memory.writeRun s.mem a (regAt s) n) (a + y.toNat) = s.getV y := by
  rw [Memory.read_writeRun_inside _ _ h, regAt_toNat]

theorem onlyRegsAdvanced_loadedRun_next : onlyRegsAdvanced s (s.loadedRun a n).next := by
  rw [onlyRegsAdvanced, s.loadedRun_eq]
  rfl

theorem loadedRun_halt_eq (r : HaltReason) :
    (s.loadedRun a n).halt r = { s.halt r with v := ((s.loadedRun a n).halt r).v } := by
  rw [s.loadedRun_eq]
  rfl

end Runs

section Digits

variable {m : Memory} {a n : Nat} (v : Byte)

theorem read_writeRun_hundreds (h : 0 < n) :
    (Memory.read (Memory.writeRun m a (bcdDigit v) n) a).toNat = v.toNat / 100 := by
  have hread : Memory.read (Memory.writeRun m a (bcdDigit v) n) a = bcdDigit v 0 := Memory.read_writeRun_inside m _ h
  rw [hread]
  exact (BitVec.toNat_ofNat _ _).trans (Nat.mod_eq_of_lt (by omega))

theorem read_writeRun_tens (h : 1 < n) :
    (Memory.read (Memory.writeRun m a (bcdDigit v) n) (a + 1)).toNat = v.toNat / 10 % 10 := by
  rw [Memory.read_writeRun_inside m _ h]
  exact (BitVec.toNat_ofNat _ _).trans (Nat.mod_eq_of_lt (by omega))

theorem read_writeRun_units (h : 2 < n) :
    (Memory.read (Memory.writeRun m a (bcdDigit v) n) (a + 2)).toNat = v.toNat % 10 := by
  rw [Memory.read_writeRun_inside m _ h]
  exact (BitVec.toNat_ofNat _ _).trans (Nat.mod_eq_of_lt (by omega))

end Digits

theorem exec_ldB (s : State) (x : Nibble) :
    exec (.ldB x) s = State.complete (s.storeRun (indexAddr s) (bcdDigit (s.getV x)) 3) := rfl

theorem exec_ldMemVx (s : State) (x : Nibble) :
    exec (.ldMemVx x) s = State.complete (s.storeRun (indexAddr s) (regAt s) (x.toNat + 1)) := rfl

theorem exec_ldVxMem (s : State) (x : Nibble) :
    exec (.ldVxMem x) s = State.complete (s.loadRun (indexAddr s) (x.toNat + 1)) := rfl

/-- Settles O35: LD B is a block store of the three digits, which completes or halts at its first fault. -/
theorem bcdStoresThreeDigits : Obligations.BcdStoresThreeDigits := by
  refine ⟨fun _ => decode_of_ldB, fun s x => ⟨fun hw => ?_, fun k hk hw hf => ?_⟩⟩
  · exact ⟨_, (exec_ldB s x).trans (complete_storeRun_of_canWrite _ hw), rfl,
      read_writeRun_hundreds _ (by decide), read_writeRun_tens _ (by decide), read_writeRun_units _ (by decide),
      fun _ => Memory.read_writeRun_outside _ _⟩
  · exact ⟨_, (exec_ldB s x).trans (complete_storeRun_of_fault _ hk hw hf), rfl,
      read_writeRun_hundreds _, read_writeRun_tens _, fun _ => Memory.read_writeRun_outside _ _⟩

/-- Settles O36: LD [I], Vx is a block store of X + 1 registers, which completes or halts at its first fault. -/
theorem blockStoreWritesRegisters : Obligations.BlockStoreWritesRegisters := by
  refine ⟨fun _ => decode_of_ldMemVx, fun s x => ⟨fun hw => ?_, fun k hk hw hf => ?_⟩⟩
  · exact ⟨_, exec_ldMemVx_of_canWrite hw, rfl, fun _ => s.read_storedRegs,
      fun _ => Memory.read_writeRun_outside (n := x.toNat + 1) _ _⟩
  · exact ⟨_, (exec_ldMemVx s x).trans (complete_storeRun_of_fault _ (Nat.lt_succ_of_le hk) hw hf), rfl,
      fun _ => read_writeRun_regAt, fun _ => Memory.read_writeRun_outside _ _⟩

/-- Settles O37: LD Vx, [I] is a block load of X + 1 registers, which completes or halts at its first fault. -/
theorem blockLoadReadsRegisters : Obligations.BlockLoadReadsRegisters := by
  refine ⟨fun _ => decode_of_ldVxMem, fun s x => ?_⟩
  have hx : x.toNat < 16 := x.isLt
  refine ⟨fun hr => ?_, fun k hk hr hf => ?_⟩
  · have hall : ∀ j < x.toNat + 1, s.canRead (indexAddr s + j) = true := fun j hj => hr j (Nat.le_of_lt_succ hj)
    refine ⟨_, (exec_ldVxMem s x).trans (complete_loadRun_of_canRead hall), onlyRegsAdvanced_loadedRun_next,
      fun y => ?_⟩
    have hget := s.loadedRun_getV (indexAddr s) (x.toNat + 1) hx y
    simp only [Nat.lt_succ_iff, ← BitVec.le_def] at hget
    exact hget
  · exact ⟨_, (exec_ldVxMem s x).trans (complete_loadRun_of_fault (Nat.lt_succ_of_le hk) hr hf),
      loadedRun_halt_eq _, s.loadedRun_getV (indexAddr s) k (by omega)⟩

end Sys2Proof.Machine

namespace Sys2Proof.Machine

/-! ### Inspection: texts, listing, snapshot (47_inspection R290 to R297) -/

section Digits

variable (op : Word)

/-- A digit depends on its number's low nibble alone. -/
theorem hexDigit_congr {m n : Nat} (h : m % 16 = n % 16) : hexDigit m = hexDigit n := by
  rw [hexDigit, hexDigit, h]

/-- The model's digits are the sixteen uppercase hexadecimal digits (R292). -/
theorem getElem?_hexDigit (n : Nat) : "0123456789ABCDEF".toList[n % 16]? = some (hexDigit n) := by
  have digits : ∀ d < 16, "0123456789ABCDEF".toList[d]? = some (hexDigit d) := by decide
  rw [digits _ (Nat.mod_lt n (by decide)), hexDigit_congr (Nat.mod_mod n 16)]

@[simp] theorem hexText_toList (digits n : Nat) : (hexText digits n).toList = hexChars digits n :=
  String.toList_ofList

@[simp] theorem regText_opX_toList : (regText (opX op)).toList = ['V', hexDigit (op.toNat / 256)] := by
  have hx : hexDigit (opX op).toNat = hexDigit (op.toNat / 256) := hexDigit_congr (by rw [opX_toNat]; omega)
  simp [regText, hexChars, hx]

@[simp] theorem regText_opY_toList : (regText (opY op)).toList = ['V', hexDigit (op.toNat / 16)] := by
  have hy : hexDigit (opY op).toNat = hexDigit (op.toNat / 16) := hexDigit_congr (by rw [opY_toNat]; omega)
  simp [regText, hexChars, hy]

@[simp] theorem hexChars_opN : hexChars 1 (opN op).toNat = [hexDigit op.toNat] := by
  have hn : hexDigit (opN op).toNat = hexDigit op.toNat := hexDigit_congr (by rw [opN_toNat]; omega)
  simp [hexChars, hn]

@[simp] theorem byteText_opNN_toList :
    (byteText (opNN op)).toList = ['0', 'x', hexDigit (op.toNat / 16), hexDigit op.toNat] := by
  have hy : hexDigit ((opNN op).toNat / 16) = hexDigit (op.toNat / 16) := hexDigit_congr (by rw [opNN_toNat]; omega)
  have hn : hexDigit (opNN op).toNat = hexDigit op.toNat := hexDigit_congr (by rw [opNN_toNat]; omega)
  simp [byteText, hexChars, hy, hn]

@[simp] theorem addrText_opNNN_toList : (addrText (opNNN op)).toList =
    ['0', 'x', hexDigit (op.toNat / 256), hexDigit (op.toNat / 16), hexDigit op.toNat] := by
  have hx : hexDigit ((opNNN op).toNat / 16 / 16) = hexDigit (op.toNat / 256) :=
    hexDigit_congr (by rw [opNNN_toNat]; omega)
  have hy : hexDigit ((opNNN op).toNat / 16) = hexDigit (op.toNat / 16) := hexDigit_congr (by rw [opNNN_toNat]; omega)
  have hn : hexDigit (opNNN op).toNat = hexDigit op.toNat := hexDigit_congr (by rw [opNNN_toNat]; omega)
  simp [addrText, hexChars, hx, hy, hn]

/-- The four digits of a word, each nibble its own (R293). -/
theorem hexChars_word : hexChars 4 op.toNat =
    [hexDigit (op.toNat / 4096), hexDigit (op.toNat / 256), hexDigit (op.toNat / 16), hexDigit op.toNat] := by
  simp [hexChars, Nat.div_div_eq_div_mul]

end Digits

section Disassemble

variable {op : Word} {i : Instr} {e : DecodeError}

theorem disassemble_of_decode_ok (h : decode op = .ok i) : disassemble op = instrText i := by
  rw [disassemble, h]

/-- A word's text is a given list of characters when its instruction's template is. -/
theorem disassemble_toList_of_decode_ok {text : List Char} (h : decode op = .ok i) (ht : (instrText i).toList = text) :
    (disassemble op).toList = text := by
  rw [disassemble_of_decode_ok h, ht]

theorem disassemble_toList_of_decode_error (h : decode op = .error e) :
    (disassemble op).toList = '0' :: 'x' :: hexChars 4 op.toNat := by
  simp [disassemble, h]

/-- Every template begins with its mnemonic, and no mnemonic begins with a digit (R292). -/
theorem instrText_head_ne_zero (i : Instr) : (instrText i).toList.head? ≠ some '0' := by
  cases i <;> simp [instrText]

end Disassemble

/-- Settles O56: by what the decoder answers, since a template begins with a letter and a literal with `0`. -/
theorem mnemonicExactlyWhenExecuted : Obligations.MnemonicExactlyWhenExecuted := by
  intro op
  cases hd : decode op with
  | ok i => simp [disassemble_of_decode_ok hd, instrText_head_ne_zero]
  | error e => simp [disassemble_toList_of_decode_error hd, hexChars_word]

/-- Settles O60: each row's words decode to one instruction, whose template the text is. -/
theorem textsFollowTheTemplates : Obligations.TextsFollowTheTemplates := by
  refine ⟨getElem?_hexDigit, fun op => ⟨fun hc hnn => disassemble_toList_of_decode_ok (decode_of_cls hc hnn) ?_,
    fun hc hnn => disassemble_toList_of_decode_ok (decode_of_ret hc hnn) ?_,
    fun hc => disassemble_toList_of_decode_ok (decode_of_jp hc) ?_,
    fun hc => disassemble_toList_of_decode_ok (decode_of_call hc) ?_,
    fun hc => disassemble_toList_of_decode_ok (decode_of_seImm hc) ?_,
    fun hc => disassemble_toList_of_decode_ok (decode_of_sneImm hc) ?_,
    fun hc => disassemble_toList_of_decode_ok (decode_of_seReg hc) ?_,
    fun hc => disassemble_toList_of_decode_ok (decode_of_ldImm hc) ?_,
    fun hc => disassemble_toList_of_decode_ok (decode_of_addImm hc) ?_,
    fun hc hn => disassemble_toList_of_decode_ok (decode_of_ldReg hc hn) ?_,
    fun hc hn => disassemble_toList_of_decode_ok (decode_of_orReg hc hn) ?_,
    fun hc hn => disassemble_toList_of_decode_ok (decode_of_andReg hc hn) ?_,
    fun hc hn => disassemble_toList_of_decode_ok (decode_of_xorReg hc hn) ?_,
    fun hc hn => disassemble_toList_of_decode_ok (decode_of_addReg hc hn) ?_,
    fun hc hn => disassemble_toList_of_decode_ok (decode_of_subReg hc hn) ?_,
    fun hc => disassemble_toList_of_decode_ok (decode_of_ldI hc) ?_,
    fun hc => disassemble_toList_of_decode_ok (decode_of_jpV0 hc) ?_,
    fun hc => disassemble_toList_of_decode_ok (decode_of_rnd hc) ?_,
    fun hc => disassemble_toList_of_decode_ok (decode_of_drw hc) ?_,
    fun hc hn => disassemble_toList_of_decode_ok (decode_of_skp hc hn) ?_,
    fun hc hn => disassemble_toList_of_decode_ok (decode_of_sknp hc hn) ?_,
    fun hc hnn => disassemble_toList_of_decode_ok (decode_of_ldVxDT hc hnn) ?_,
    fun hc hnn => disassemble_toList_of_decode_ok (decode_of_ldDTVx hc hnn) ?_,
    fun hc hnn => disassemble_toList_of_decode_ok (decode_of_ldSTVx hc hnn) ?_,
    fun hc hnn => disassemble_toList_of_decode_ok (decode_of_addI hc hnn) ?_,
    fun hc hnn => disassemble_toList_of_decode_ok (decode_of_ldF hc hnn) ?_,
    fun hc hnn => disassemble_toList_of_decode_ok (decode_of_ldB hc hnn) ?_,
    fun hc hnn => disassemble_toList_of_decode_ok (decode_of_ldMemVx hc hnn) ?_,
    fun hc hnn => disassemble_toList_of_decode_ok (decode_of_ldVxMem hc hnn) ?_⟩⟩
  -- what is left spells each template's fields, by the lemmas of section `Digits`
  all_goals simp [instrText]

section Listing

variable (s : State)

/-- A listing goes on with the two bytes at its address when one region owns both, and stops when not (R294). -/
theorem listingFrom_succ (a count : Nat) : listingFrom s a (count + 1) =
    if s.canFetch a then (a, disassemble (s.wordAt a)) :: listingFrom s (a + 2) count else [] := by
  rw [listingFrom, State.canFetch]
  cases ho : ownerOf s.map a with
  | none => rw [busRead_of_unmapped s.mem 2 ho]; rfl
  | some r =>
    rcases lt_or_ge (r.base + r.size) (a + 2) with hend | hend
    · simp [busRead_of_straddle s.mem ho hend, hend.not_ge]
    · simp [busRead_of_within s.mem ho hend, hend, readBE_two, State.wordAt]

theorem length_listingFrom_le (a count : Nat) : (listingFrom s a count).length ≤ count := by
  induction count generalizing a with
  | zero => exact Nat.le_refl 0
  | succ count ih =>
    rw [listingFrom_succ]
    split
    · exact Nat.succ_le_succ (ih (a + 2))
    · exact Nat.zero_le _

/-- The k-th entry of a listing is the readable word k words on. -/
theorem listingFrom_getElem (a count k : Nat) (h : k < (listingFrom s a count).length) :
    s.canFetch (a + 2 * k) = true ∧
      (listingFrom s a count)[k] = (a + 2 * k, disassemble (s.wordAt (a + 2 * k))) := by
  induction count generalizing a k with
  | zero => exact absurd h (Nat.not_lt_zero k)
  | succ count ih =>
    by_cases hf : s.canFetch a = true
    · have e := listingFrom_succ s a count
      rw [if_pos hf] at e
      simp only [e] at h ⊢
      cases k with
      | zero => exact ⟨hf, rfl⟩
      | succ k =>
        have ha : a + 2 * (k + 1) = a + 2 + 2 * k := by omega
        rw [ha]
        exact ih (a + 2) k (Nat.lt_of_succ_lt_succ h)
    · simp [listingFrom_succ, hf] at h

/-- A listing shorter than asked for stopped at a word that cannot be read. -/
theorem canFetch_after_short_listingFrom (a count : Nat) (h : (listingFrom s a count).length < count) :
    s.canFetch (a + 2 * (listingFrom s a count).length) = false := by
  induction count generalizing a with
  | zero => exact absurd h (Nat.not_lt_zero _)
  | succ count ih =>
    rw [listingFrom_succ] at h ⊢
    split at h
    case isTrue hf =>
      have ha : a + 2 * ((listingFrom s (a + 2) count).length + 1) =
          a + 2 + 2 * (listingFrom s (a + 2) count).length := by omega
      rw [if_pos hf, List.length_cons, ha]
      exact ih (a + 2) (Nat.lt_of_succ_lt_succ h)
    case isFalse hf => simp [hf]

end Listing

/-- Settles O57: the three facts of a listing, for the one that begins at pc. -/
theorem listingStopsAtUnreadableWord : Obligations.ListingStopsAtUnreadableWord :=
  fun s count => ⟨length_listingFrom_le s _ count, listingFrom_getElem s _ count,
    canFetch_after_short_listingFrom s _ count⟩

/-- The entry of a general register stands after the three of PC, SP and I. -/
theorem snapshot_general (s : State) (x : Nibble) :
    (snapshot s)[3 + x.toNat]? = some ⟨regText x, (s.getV x).toNat, 2, .general⟩ := by
  have hx : x.toNat < 16 := x.isLt
  rw [snapshot, List.getElem?_append_right (by simp)]
  simp [hx, regAt_toNat]

/-- Settles O58: the first three entries are written out, and the rest map the registers in order. -/
theorem snapshotListsTheRegisters : Obligations.SnapshotListsTheRegisters :=
  fun s => ⟨rfl, rfl, rfl, rfl, snapshot_general s⟩

end Sys2Proof.Machine

namespace Sys2Proof.Machine

/-! ### Halts (60_exceptions R320 to R324) -/

/-- Settles O54: across each of the host's actions, as `step_keeps_haltInv` shows. -/
theorem stepKeepsTheHaltReport : Obligations.StepKeepsTheHaltReport :=
  fun _ _ => step_keeps_haltInv

theorem exists_tick_eq_next (s : State) : ∃ t, s.tick = .next t := by
  rcases tick_cases s with ⟨-, -, e⟩ | ⟨-, r, -, e⟩ | ⟨-, -, -, t, -, -, -, e⟩
  · exact ⟨s, e⟩
  · exact ⟨s.halt r, e⟩
  · exact ⟨t.retire, e⟩

/-- Settles O11: a tick answers a next state, and so does every other action of the host. -/
theorem everyStepAnswersNext : Obligations.EveryStepAnswersNext := by
  intro s
  rw [step_eq_takeAction]
  cases s.hostPlan.headD .tick with
  | tick => exact exists_tick_eq_next s.planTaken
  | init | stop | timerDecrement | inspect => exact ⟨_, rfl⟩

/-- With an action planned, a step is that action once it has left the plan. -/
theorem step_of_plan_cons {s : State} {a : HostAction} {rest : List HostAction} (h : s.hostPlan = a :: rest) :
    step s = State.takeAction { s with hostPlan := rest } a := by
  rw [step_eq_takeAction, State.planTaken, h]
  rfl

section Halted

variable {i : Instr} {s t : State} {r : HaltReason} {a n : Nat}

/-- An instruction that ran to completion has not halted. -/
theorem not_completed_of_halted (hs : s.run = .running) (hr : t.run = .halted r) : ¬ completed s t := by
  rintro ⟨hrun, -⟩
  rw [hs, hr] at hrun
  cases hrun

/-- An instruction that leaves Running has halted by the halt procedure, for the reason the run state holds. -/
theorem haltedAt_of_exec (hs : s.run = .running) (h : exec i s = .next t) (hr : t.run = .halted r) :
    haltedAt s t r := by
  obtain ⟨u, hu, -, -, -, hc⟩ := exec_cases i s
  rw [h] at hu
  cases hu
  obtain ⟨r', hat⟩ := hc.resolve_left (not_completed_of_halted hs hr)
  obtain rfl : r' = r := RunState.halted.inj ((congrArg State.run hat.1).symm.trans hr)
  exact hat

/-- A block store that halts has faulted at some k-th byte: the k bytes before it are written, and no other. -/
theorem complete_storeRun_of_halted {f : Nat → Byte} (hs : s.run = .running)
    (h : State.complete (s.storeRun a f n) = .next t) (hr : t.run = .halted r) :
    ∃ k < n, r = .busFault (s.writeFault (a + k)) .write (a + k) 1 s.pc ∧
      ∀ b, Memory.read t.mem b = if a ≤ b ∧ b < a + k then f (b - a) else Memory.read s.mem b := by
  rcases s.storeRun_cases a f n with ⟨-, e⟩ | ⟨k, hk, -, -, e⟩ <;> rw [e] at h <;> cases h
  · exact absurd ⟨rfl, .inl rfl⟩ (not_completed_of_halted hs hr)
  · exact ⟨k, hk, (RunState.halted.inj hr).symm, Memory.read_writeRun s.mem a f k⟩

/-- A block load that halts has faulted at some k-th byte: the k registers before it are loaded, and no other. -/
theorem complete_loadRun_of_halted (hn : n ≤ 16) (hs : s.run = .running)
    (h : State.complete (s.loadRun a n) = .next t) (hr : t.run = .halted r) :
    ∃ k < n, r = .busFault .unmapped .read (a + k) 1 s.pc ∧
      ∀ y : Nibble, t.getV y = if y.toNat < k then Memory.read s.mem (a + y.toNat) else s.getV y := by
  rcases s.loadRun_cases a n with ⟨-, e⟩ | ⟨k, hk, -, -, e⟩ <;> rw [e] at h <;> cases h
  · rw [State.next_run, s.loadedRun_eq, hs] at hr
    cases hr
  · exact ⟨k, hk, (RunState.halted.inj hr).symm, s.loadedRun_getV a k (hk.le.trans hn)⟩

/-- Of the instructions that can halt, only the block load has written registers by then. -/
theorem exec_v_of_halted (hs : s.run = .running) (h : exec i s = .next t) (hr : t.run = .halted r)
    (hv : t.v ≠ s.v) : ∃ x, i = .ldVxMem x := by
  cases i with
  | ldVxMem x => exact ⟨x, rfl⟩
  | ret => exact absurd (congrArg State.v (execRet_writesCallStack h) :) hv
  | call nnn => exact absurd (congrArg State.v (execCall_writesCallStack h) :) hv
  | ldB x | ldMemVx x => exact absurd (congrArg State.v (complete_storeRun h) :) hv
  | _ =>
    cases h
    exact absurd (hs.symm.trans hr) nofun

end Halted

/-- Settles O12: the frame is that of the halt procedure, and a block store or load says where it faulted. -/
theorem haltsArePrecise : Obligations.HaltsArePrecise := by
  intro i s t r hs h hr
  obtain ⟨hframe, -⟩ := haltedAt_of_exec hs h hr
  obtain ⟨-, -, -, -, -, hmem, -⟩ := onlyListedWritersChangeEachElement i s t h
  refine ⟨hframe, hmem, exec_v_of_halted hs h hr, ?_, ?_, ?_⟩
  · rintro x rfl
    exact complete_storeRun_of_halted hs h hr
  · rintro x rfl
    obtain ⟨k, hk, hreads⟩ := complete_storeRun_of_halted hs h hr
    exact ⟨k, Nat.le_of_lt_succ hk, hreads⟩
  · rintro x rfl
    obtain ⟨k, hk, hreads⟩ := complete_loadRun_of_halted x.isLt hs h hr
    exact ⟨k, Nat.le_of_lt_succ hk, hreads⟩

/-- In Halted no action of the host but `Init` changes the run state (R323, R328). -/
theorem takeAction_run_of_halted {s t : State} {r : HaltReason} {a : HostAction} (hr : s.run = .halted r)
    (ha : a ≠ .init) (h : s.takeAction a = .next t) : t.run = .halted r := by
  cases a with
  | init => exact absurd rfl ha
  | tick =>
    cases (tick_of_halted hr).symm.trans h
    exact hr
  | stop =>
    cases h
    rwa [stop_of_halted hr]
  | timerDecrement | inspect =>
    cases h
    exact hr

/-- Settles O13: the action a step takes is the plan's first, or a tick. -/
theorem onlyInitLeavesHalted : Obligations.OnlyInitLeavesHalted := by
  intro s t r hr h
  cases hp : s.hostPlan with
  | nil =>
    rw [step_of_plan_nil hp] at h
    exact .inl (takeAction_run_of_halted (a := .tick) hr nofun h)
  | cons a rest =>
    rw [step_of_plan_cons hp] at h
    by_cases ha : a = .init
    · exact .inr ⟨rest, by rw [ha]⟩
    · exact .inl (takeAction_run_of_halted (s := { s with hostPlan := rest }) hr ha h)

/-! ### The host's actions and construction (60_exceptions R328, R335, 70_reset_and_hazards R360, R361) -/

/-- A timer counts down by one, and not below 0 (R335). -/
theorem countDown_toNat (b : Byte) : (countDown b).toNat = b.toNat - 1 := by
  unfold countDown
  split <;> bv_omega

/-- Settles O50, action by action. -/
theorem hostActionsBetweenTicks : Obligations.HostActionsBetweenTicks := by
  refine fun s rest => ⟨fun hp => ⟨fun hr => ?_, fun r hr => ?_⟩, fun hp => ?_, fun hp => step_of_plan_cons hp⟩
  · exact (step_of_plan_cons hp).trans (congrArg _ (stop_of_running (s := { s with hostPlan := rest }) hr))
  · exact (step_of_plan_cons hp).trans (congrArg _ (stop_of_halted (s := { s with hostPlan := rest }) hr))
  · exact ⟨_, step_of_plan_cons hp, rfl, countDown_toNat s.dt, countDown_toNat s.st⟩

/-- Settles O49: the step is `init()` with the plan's rest in place. -/
theorem initSetsTheRegisterFile : Obligations.InitSetsTheRegisterFile :=
  fun _ _ hp => ⟨_, step_of_plan_cons hp, rfl, rfl, rfl, rfl, rfl, rfl, rfl, rfl, rfl, rfl, rfl, rfl, rfl⟩

theorem Memory.read_writeBytes_outside (m : Memory) (a : Nat) (bs : List Byte) {x : Nat}
    (h : x < a ∨ a + bs.length ≤ x) : Memory.read (Memory.writeBytes m a bs) x = Memory.read m x := by
  rw [Memory.read_writeBytes, dif_neg (by omega)]

/-- In a valid map one mapping stands at a base, so the region that construction finds is the one the image fits into
(20_memory R75). -/
theorem exists_construct_of_wf {l : Launch} (hl : l.wf) : ∃ s, construct l = some s := by
  obtain ⟨hmap, ⟨m, hm, hb, hlen⟩, -⟩ := hl
  cases hf : l.map.find? (fun r => r.base == l.romBase) with
  | none => exact absurd hb (by simpa using List.find?_eq_none.1 hf m hm)
  | some r =>
    have hr : r ∈ l.map := List.mem_of_find?_eq_some hf
    have hrb : r.base = l.romBase := by simpa using List.find?_some hf
    obtain ⟨hrsize, -⟩ := hmap.1 r hr
    obtain ⟨hmsize, -⟩ := hmap.1 m hm
    obtain rfl : r = m := eq_of_covers hmap hr hm (a := l.romBase) (by omega) (by omega)
    simp [construct, hf, regionLoadData, Nat.not_lt.2 hlen]

/-- Settles O51: a well-formed launch constructs a system, and any system that is constructed has its image written into
a region it fits. -/
theorem constructionLoadsTheImage : Obligations.ConstructionLoadsTheImage := by
  refine fun l => ⟨fun hl => ?_, fun hlong => ?_⟩
  · obtain ⟨s, hs⟩ := exists_construct_of_wf hl
    obtain ⟨r, -, -, -, rfl⟩ := construct_cases hs
    exact ⟨_, hs, rfl, rfl, rfl, rfl, rfl, rfl, rfl, rfl, rfl, rfl, rfl, imageStands_writeBytes l,
      fun _ => Memory.read_writeBytes_outside _ _ _⟩
  · refine Option.eq_none_iff_forall_ne_some.2 fun s hs => ?_
    obtain ⟨r, hr, hb, hlen, -⟩ := construct_cases hs
    exact Nat.not_lt.2 hlen (hlong r hr hb)

end Sys2Proof.Machine
